-- ==== Sys2Proof/Word.lean ====
section
/-!
DEFINITION. The word types of the FW vocoder core: 32-bit register and command words (R14, R100),
9-bit byte offsets in the register window and 4-bit byte enables (R70, R71).
-/

namespace Sys2Proof

/-- A 32-bit word: a command word, a field word, an int32 or a binary32 value (R100, R101). -/
abbrev Word := BitVec 32

/-- A byte offset inside the 512-byte register window (R70). -/
abbrev Offset := BitVec 9

/-- The byte enables of one access; bit k enables byte lane k (R71, R74). -/
abbrev ByteEnables := BitVec 4

/-- A band index, 0 to 15 (R8). -/
abbrev Band := Fin 16

end Sys2Proof
end

