-- ==== Sys2Proof/Syntax.lean ====
section
/-!
DEFINITION. The instructions of the core: one constructor per row of spec/opcode_table.json, the four
commands (R103) and the host's two register transactions (R72, R73, R237).
-/

namespace Sys2Proof

/-- The instructions of the core (R2). -/
inductive Instr where
  /-- NOP, command word 0x00000000 (R231). -/
  | nop
  /-- STEP, command word 0x00000001: one per-sample step (R232). -/
  | step
  /-- RESET, command word 0x00000002: clears the band offset (R234). -/
  | reset
  /-- CONFIGURE, command word 0x00000003: applies the sample rate and rebuilds the filters (R236). -/
  | configure
  /-- RD, a full-word read of the register at byte offset `off` (R72). -/
  | rd (off : Offset)
  /-- WR, a full-word write of `w` to the register at byte offset `off` (R73). -/
  | wr (off : Offset) (w : Word)
  deriving DecidableEq, Repr

end Sys2Proof
end

