-- ==== Sys2Proof/WellFormed.lean ====
section
/-!
DEFINITION. Which terms of `Instr` the encodings can express: a register transaction carries a word
offset only, so its byte offset is a multiple of four (opcode_table.json rows RD and WR, R75).
-/

namespace Sys2Proof

/-- An offset the 14-bit transaction pattern can carry: off[1:0] = 0 (R75). -/
def alignedOffset (off : Offset) : Bool := off.extractLsb' 0 2 == 0#2

/-- Well-formedness of an instruction. An offset that names no register is well formed: it can be
encoded, and the access to it is an access error (R77). -/
def Instr.wf : Instr → Bool
  | .nop => true
  | .step => true
  | .reset => true
  | .configure => true
  | .rd off => alignedOffset off
  | .wr off _ => alignedOffset off

end Sys2Proof
end

