-- ==== Sys2Proof/Decode.lean ====
section
/-!
DEFINITION. The two encoded forms of the core (R100, opcode_table.json), a total decoder that rejects by
name, and the encoder. A command is one 32-bit word (R102, R103). A register transaction is the
14-bit pattern {we, be[3:0], addr[8:0]} with the 32 bits of `wdata` beside it.
-/

namespace Sys2Proof

/-- An encoded instruction. -/
inductive Encoded where
  /-- A command word, as written to CMD (R102). -/
  | command (w : Word)
  /-- A register transaction: the pattern {we, be[3:0], addr[8:0]} and `wdata` (30_encoding.md). -/
  | transaction (pattern : BitVec 14) (wdata : Word)
  deriving DecidableEq, Repr

/-- Why an encoded form is no instruction. -/
inductive Reject where
  /-- A command word other than the four of R103: an illegal encoding (R104). -/
  | illegalCommand (w : Word)
  /-- A transaction whose byte enables are not 0b1111: a partial access (R78). -/
  | partialAccess (be : ByteEnables)
  /-- A transaction whose offset is not a multiple of four: a misaligned access (R75). -/
  | misaligned (off : Offset)
  deriving DecidableEq, Repr

/-- The fields of a transaction pattern: `we` is bit 13, `be` bits 12:9, `addr` bits 8:0. -/
def patternWe (p : BitVec 14) : Bool := p.getLsbD 13
def patternBe (p : BitVec 14) : ByteEnables := p.extractLsb' 9 4
def patternAddr (p : BitVec 14) : Offset := p.extractLsb' 0 9

/-- The pattern with the given fields, {we, be, addr}. -/
def makePattern (we : Bool) (be : ByteEnables) (addr : Offset) : BitVec 14 :=
  BitVec.ofBool we ++ be ++ addr

/-- The opcode map of R103: the whole word must match. -/
def decodeCommand (w : Word) : Except Reject Instr :=
  if w = 0x00000000#32 then .ok .nop
  else if w = 0x00000001#32 then .ok .step
  else if w = 0x00000002#32 then .ok .reset
  else if w = 0x00000003#32 then .ok .configure
  else .error (.illegalCommand w)

/-- Rows RD and WR of the opcode table: be = 0b1111 and addr[1:0] = 0b00. -/
def decodeTransaction (p : BitVec 14) (wdata : Word) : Except Reject Instr :=
  if patternBe p ≠ 0b1111#4 then .error (.partialAccess (patternBe p))
  else if alignedOffset (patternAddr p) = false then .error (.misaligned (patternAddr p))
  else if patternWe p then .ok (.wr (patternAddr p) wdata)
  else .ok (.rd (patternAddr p))

/-- The decoder, total on every encoded form. -/
def decode : Encoded → Except Reject Instr
  | .command w => decodeCommand w
  | .transaction p wdata => decodeTransaction p wdata

/-- The encoder, from the same tables (R103 and the rows RD and WR). A read carries no data, so its
`wdata` is zero. -/
def encode : Instr → Encoded
  | .nop => .command 0x00000000#32
  | .step => .command 0x00000001#32
  | .reset => .command 0x00000002#32
  | .configure => .command 0x00000003#32
  | .rd off => .transaction (makePattern false 0b1111#4 off) 0
  | .wr off w => .transaction (makePattern true 0b1111#4 off) w

/-- The encoded form of an instruction numbered as the opcode table numbers its bits: a 32-bit row is
a command word; a row of 14 bits (two whole bytes) is a transaction pattern in bits 13:0 with
`wdata`, where bits are given for it, in bits 47:16. -/
def encodedOfTableWord (nbits w : Nat) : Option Encoded :=
  if nbits = 32 then
    if w < 2 ^ 32 then some (.command (BitVec.ofNat 32 w)) else none
  else if nbits = 14 ∨ nbits = 16 ∨ nbits = 48 then
    if w < 2 ^ nbits ∧ w % 65536 < 16384 then
      some (.transaction (BitVec.ofNat 14 (w % 65536)) (BitVec.ofNat 32 (w / 65536)))
    else none
  else none

/-- The instruction the decoder reads from an opcode-table word, `none` where it refuses. -/
def decodeTableWord (nbits w : Nat) : Option Instr :=
  match encodedOfTableWord nbits w with
  | none => none
  | some e =>
    match decode e with
    | .ok i => some i
    | .error _ => none

end Sys2Proof
end

