-- ==== Sys2Proof/Machine/Records.lean ====
section
/-!
DEFINITION. The containers of the core's register files: two banks, two stages, sixteen bands (R8),
and the records of the coefficient and history files (R46, R47). All are plain records with one
field per index, so no length has to be carried around.
-/

namespace Sys2Proof.Machine

/-- The two banks: MOD conditions the modulator, CAR the carrier (R8, R22). -/
inductive Bank where
  | mod
  | car
  deriving DecidableEq, Repr

/-- The two cascaded stages of a band (R8, R22). -/
inductive Stage where
  | s0
  | s1
  deriving DecidableEq, Repr

/-- One value per bank. -/
structure Banks (α : Type) where
  mod : α
  car : α
  deriving DecidableEq, Repr

/-- One value per stage. -/
structure Stages (α : Type) where
  s0 : α
  s1 : α
  deriving DecidableEq, Repr

/-- One value per band, 0 to 15. -/
structure Lanes (α : Type) where
  l0 : α
  l1 : α
  l2 : α
  l3 : α
  l4 : α
  l5 : α
  l6 : α
  l7 : α
  l8 : α
  l9 : α
  l10 : α
  l11 : α
  l12 : α
  l13 : α
  l14 : α
  l15 : α
  deriving DecidableEq, Repr

/-- The five coefficients of a biquad, normalised by the leading one (R46, R131). -/
structure Coef where
  b0 : Word
  b1 : Word
  b2 : Word
  a1 : Word
  a2 : Word
  deriving DecidableEq, Repr

/-- The two-sample input and output history of a biquad (R47). -/
structure Hist where
  x1 : Word
  x2 : Word
  y1 : Word
  y2 : Word
  deriving DecidableEq, Repr

def Banks.get {α : Type} (v : Banks α) : Bank → α
  | .mod => v.mod
  | .car => v.car

def Banks.set {α : Type} (v : Banks α) (b : Bank) (x : α) : Banks α :=
  match b with
  | .mod => { v with mod := x }
  | .car => { v with car := x }

def Stages.get {α : Type} (v : Stages α) : Stage → α
  | .s0 => v.s0
  | .s1 => v.s1

def Stages.set {α : Type} (v : Stages α) (st : Stage) (x : α) : Stages α :=
  match st with
  | .s0 => { v with s0 := x }
  | .s1 => { v with s1 := x }

def Lanes.get {α : Type} (v : Lanes α) (i : Band) : α :=
  match i.val with
  | 0 => v.l0
  | 1 => v.l1
  | 2 => v.l2
  | 3 => v.l3
  | 4 => v.l4
  | 5 => v.l5
  | 6 => v.l6
  | 7 => v.l7
  | 8 => v.l8
  | 9 => v.l9
  | 10 => v.l10
  | 11 => v.l11
  | 12 => v.l12
  | 13 => v.l13
  | 14 => v.l14
  | _ => v.l15

/-- The lanes whose value at band `i` is `f i`. -/
def Lanes.ofFn {α : Type} (f : Band → α) : Lanes α :=
  ⟨f 0, f 1, f 2, f 3, f 4, f 5, f 6, f 7, f 8, f 9, f 10, f 11, f 12, f 13, f 14, f 15⟩

def Lanes.set {α : Type} (v : Lanes α) (i : Band) (x : α) : Lanes α :=
  Lanes.ofFn fun j => if j = i then x else v.get j

/-- The same value in every lane. -/
def Lanes.fill {α : Type} (x : α) : Lanes α := Lanes.ofFn fun _ => x

/-- The bands in the order 0, 1, ..., 15 (R21). -/
def bands : List Band := [0, 1, 2, 3, 4, 5, 6, 7, 8, 9, 10, 11, 12, 13, 14, 15]

end Sys2Proof.Machine
end

