-- ==== Sys2Proof/Machine/State.lean ====
section
/-!
DEFINITION. The state of the core (10_state.md), as plain data, and its power-on value (R58). The
coefficient and history files are indexed [bank][band][stage] (R46, R47).
-/

namespace Sys2Proof.Machine

/-- The parameter and input registers (R31, R36 to R39). The snapshot L has the same fields (R56). -/
structure Regs where
  sampleRate : Word
  connect : Word
  attackKnob : Word
  decayKnob : Word
  carqKnob : Word
  modqKnob : Word
  bofsKnob : Word
  modGainKnob : Word
  carGainKnob : Word
  outGainKnob : Word
  bandGain : Lanes Word
  modIn : Word
  carIn : Word
  attackCv : Word
  decayCv : Word
  carqCv : Word
  modqCv : Word
  bofsCv : Word
  insertIn : Lanes Word
  deriving DecidableEq, Repr

/-- The commands that have a busy phase (R53). -/
inductive BusyOp where
  | step
  | configure
  deriving DecidableEq, Repr

/-- The command sequencer: IDLE, or BUSY(op, n) with n cycles left before completion (R53). -/
inductive Seq where
  | idle
  | busy (op : BusyOp) (n : Nat)
  deriving DecidableEq, Repr

/-- What the host drives on the core's input ports in one clock cycle (R71). -/
structure Pins where
  rstN : Bool
  req : Bool
  we : Bool
  addr : Offset
  be : ByteEnables
  wdata : Word
  deriving DecidableEq, Repr

/-- What the host does next: let a rising edge of `clk` come with the given inputs, or stop `clk`
(R71, R279). -/
inductive HostEvent where
  | edge (p : Pins)
  | stopClock
  deriving DecidableEq, Repr

/-- The whole state of the core, and what its host is about to do. -/
structure State where
  /-- The live parameter and input registers R[...] (R38, R39). -/
  regs : Regs
  /-- The snapshot L of the last accepted STEP or CONFIGURE (R56). -/
  snap : Regs
  /-- The applied sample rate (R45). -/
  fs : Word
  /-- A CONFIGURE has completed since power-on (R45). -/
  configured : Bool
  /-- The coefficient file (R46). -/
  coef : Banks (Lanes (Stages Coef))
  /-- The history file (R47). -/
  hist : Banks (Lanes (Stages Hist))
  /-- The last applied Q of each bank (R48). -/
  qApplied : Banks Word
  /-- The envelope of each band (R49). -/
  env : Lanes Word
  /-- The last peak of each band (R50). -/
  peak : Lanes Word
  /-- The envelope output of each band (R51). -/
  envOut : Lanes Word
  /-- The summed output sample (R51). -/
  out : Word
  /-- The band offset, an int32 (R52). -/
  bandOffset : Word
  /-- The command sequencer (R53). -/
  seq : Seq
  /-- The sticky error bits, bit k for STATUS bit 8 + k (R54). -/
  err : BitVec 5
  /-- The read-data port, valid in the cycle after a read is presented; `none` where it is not valid
  (R71). DESIGN CHOICE, safe: log entry 7. -/
  rdata : Option Word
  /-- The model's own field, not the spec's: what the host does at the coming edges, the next one
  first; after the last it is idle. DESIGN CHOICE, safe: log entry 2. -/
  host : List HostEvent
  deriving DecidableEq, Repr

/-- Why the machine can stop. -/
inductive Fault where
  /-- Raised by `step` alone, when the host stops `clk`: without an edge no state changes, and nothing
  is specified of the state afterwards (R279, 93_implementation_defined.md entries 11 and 13). Safe:
  nothing is claimed of the core after it. -/
  | clockStopped
  deriving DecidableEq, Repr

/-- Why an instruction has no meaning. -/
inductive Refusal where
  /-- Kept for an instruction rejected by name in `exec`; no arm of this model uses it. Safe: it would
  stop where the hardware goes on. -/
  | notModelled (mnemonic : String)
  deriving DecidableEq, Repr

/-- What an instruction or a step answers. -/
abbrev Answer := Host.Outcome State Fault Refusal

/-- The power-on values of the parameter and input registers (R31). -/
def Regs.reset : Regs where
  sampleRate := 0x00000000#32
  connect := 0x00000000#32
  attackKnob := 0x00000000#32
  decayKnob := 0x00000000#32
  carqKnob := 0x3F800000#32
  modqKnob := 0x3F800000#32
  bofsKnob := 0x00000000#32
  modGainKnob := 0x3F800000#32
  carGainKnob := 0x3F800000#32
  outGainKnob := 0x3F800000#32
  bandGain := Lanes.fill 0x3F800000#32
  modIn := 0x00000000#32
  carIn := 0x00000000#32
  attackCv := 0x00000000#32
  decayCv := 0x00000000#32
  carqCv := 0x00000000#32
  modqCv := 0x00000000#32
  bofsCv := 0x00000000#32
  insertIn := Lanes.fill 0x00000000#32

/-- The coefficient record of power-on, all +0.0 (R58). -/
def Coef.zero : Coef := ⟨0, 0, 0, 0, 0⟩

/-- The history record of power-on, all +0.0 (R58). -/
def Hist.zero : Hist := ⟨0, 0, 0, 0⟩

/-- The core right after power-on reset (R58, R290, R293), with a host that does nothing. -/
def State.reset : State where
  regs := Regs.reset
  snap := Regs.reset
  fs := 0x00000000#32
  configured := false
  coef := ⟨Lanes.fill ⟨Coef.zero, Coef.zero⟩, Lanes.fill ⟨Coef.zero, Coef.zero⟩⟩
  hist := ⟨Lanes.fill ⟨Hist.zero, Hist.zero⟩, Lanes.fill ⟨Hist.zero, Hist.zero⟩⟩
  qApplied := ⟨0x00000000#32, 0x00000000#32⟩
  env := Lanes.fill 0x00000000#32
  peak := Lanes.fill 0x00000000#32
  envOut := Lanes.fill 0x00000000#32
  out := 0x00000000#32
  bandOffset := 0x00000000#32
  seq := .idle
  err := 0b00000#5
  rdata := none
  host := []

end Sys2Proof.Machine
end

