-- ==== Sys2Proof/Machine/Flags.lean ====
section
/-!
DEFINITION. The STATUS register: its five sticky error bits, its BUSY and CONFIGURED bits, and the word a
read of it returns (R33, R34, R54, R261).
-/

namespace Sys2Proof.Machine

/-- The error causes of R261. -/
inductive ErrBit where
  /-- ERR_ILLEGAL_CMD, STATUS bit 8 (R263). -/
  | illegalCmd
  /-- ERR_BUSY, STATUS bit 9 (R264). -/
  | busy
  /-- ERR_BAD_FS, STATUS bit 10 (R266). -/
  | badFs
  /-- ERR_NOT_CONFIGURED, STATUS bit 11 (R265). -/
  | notConfigured
  /-- ERR_BUS, STATUS bit 12 (R267). -/
  | bus
  deriving DecidableEq, Repr

/-- The cause's code: its bit number in STATUS (R261). -/
def ErrBit.code : ErrBit → Nat
  | .illegalCmd => 8
  | .busy => 9
  | .badFs => 10
  | .notConfigured => 11
  | .bus => 12

/-- The cause's bit in S.err, which is STATUS[12:8] (R54). -/
def ErrBit.mask (e : ErrBit) : BitVec 5 := 1#5 <<< (e.code - 8)

/-- STATUS.BUSY, and the `busy` port: 1 exactly when S.seq is BUSY (R53, R71). -/
def busyFlag (s : State) : Bool :=
  match s.seq with
  | .idle => false
  | .busy _ _ => true

/-- STATUS.CONFIGURED (R45). -/
def configuredFlag (s : State) : Bool := s.configured

/-- The value a read of STATUS returns: {0[31:13], S.err, 0[7:2], CONFIGURED, BUSY} (R33). -/
def statusWord (s : State) : Word :=
  0#19 ++ s.err ++ 0#6 ++ BitVec.ofBool (configuredFlag s) ++ BitVec.ofBool (busyFlag s)

/-- The error bits left by a write of `w` to STATUS: those with w[n] = 0, n in 8..12 (R33). -/
def errAfterClear (err : BitVec 5) (w : Word) : BitVec 5 := err &&& ~~~(w.extractLsb' 8 5)

end Sys2Proof.Machine
end

