-- ==== Sys2Proof/Machine/Binary32.lean ====
section
/-!
DEFINITION. The binary32 primitives of R16 to R20, computed exactly on integers and rounded once.
Every finite binary32 value is an integer number of units of 2^-149 (R101), so a finite operand is
read as that integer, the operation is exact, and `roundUnits` rounds to nearest, ties to even.
-/

namespace Sys2Proof.Machine

/-- The quiet NaN that every operation with a NaN result returns (R17). -/
def qNaN : Word := 0x7FC00000#32

/-- The 31 bits below the sign, as a number: 0x7F800000 is infinity, above it are the NaNs (R101). -/
def magBits (w : Word) : Nat := w.toNat % 2147483648

/-- The sign bit, bit 31 (R16). -/
def isNeg (w : Word) : Bool := decide (2147483648 ≤ w.toNat)

def isNaN (w : Word) : Bool := decide (0x7F800000 < magBits w)

def isInf (w : Word) : Bool := decide (magBits w = 0x7F800000)

def isFinite (w : Word) : Bool := decide (magBits w < 0x7F800000)

def isZero (w : Word) : Bool := decide (magBits w = 0)

/-- The word with the given sign bit and the given 31 bits below it. -/
def pack (neg : Bool) (mag : Nat) : Word :=
  BitVec.ofNat 32 ((if neg then 2147483648 else 0) + mag % 2147483648)

/-- Infinity of the given sign (R101). -/
def inf32 (neg : Bool) : Word := pack neg 0x7F800000

/-- The magnitude of a finite value in units of 2^-149, from its biased exponent and fraction: the
fraction itself for a zero or a subnormal, (2^23 + F) * 2^(E - 1) otherwise (R101). -/
def units (w : Word) : Nat :=
  let e := magBits w / 8388608
  let f := magBits w % 8388608
  if e = 0 then f else (8388608 + f) * 2 ^ (e - 1)

/-- The signed value of a finite word in units of 2^-149. -/
def signedUnits (w : Word) : Int := if isNeg w then -(units w : Int) else units w

/-- The magnitude bits of `num / den` units of 2^-149, rounded to nearest, ties to even, with
gradual underflow, and infinity when the rounded value is out of range (R16). The last place kept is
2^k units, and the biased exponent and the fraction of the result come out of one sum. -/
def roundUnits (num den : Nat) : Nat :=
  let k := Nat.log2 (num / den) - 23
  let d := den * 2 ^ k
  let q := num / d
  let r := num % d
  let n := if d < 2 * r ∨ (2 * r = d ∧ q % 2 = 1) then q + 1 else q
  min (k * 8388608 + n) 0x7F800000

/-- 2^149, the number of units in 1.0. -/
def unitsPerOne : Nat := 2 ^ 149

/-- The binary32 image of an exact signed number of units; an exact zero takes the sign given. -/
def roundSigned (zeroNeg : Bool) (z : Int) : Word :=
  if z = 0 then pack zeroNeg 0 else pack (decide (z < 0)) (roundUnits z.natAbs 1)

/-- IEEE-754 addition (R16, R17). An exact zero sum is -0 only when both operands are negative. -/
def add32 (a b : Word) : Word :=
  if isNaN a || isNaN b then qNaN
  else if isInf a then (if isInf b && (isNeg a != isNeg b) then qNaN else inf32 (isNeg a))
  else if isInf b then inf32 (isNeg b)
  else roundSigned (isNeg a && isNeg b) (signedUnits a + signedUnits b)

/-- The operand with its sign bit flipped. -/
def neg32 (a : Word) : Word := pack (!isNeg a) (magBits a)

/-- IEEE-754 subtraction (R16, R17). -/
def sub32 (a b : Word) : Word := add32 a (neg32 b)

/-- IEEE-754 multiplication (R16, R17); the sign is the exclusive or of the signs. -/
def mul32 (a b : Word) : Word :=
  let neg := isNeg a != isNeg b
  if isNaN a || isNaN b then qNaN
  else if isInf a || isInf b then (if isZero a || isZero b then qNaN else inf32 neg)
  else pack neg (roundUnits (units a * units b) unitsPerOne)

/-- IEEE-754 division (R16, R17); a finite nonzero value over zero is an infinity. -/
def div32 (a b : Word) : Word :=
  let neg := isNeg a != isNeg b
  if isNaN a || isNaN b then qNaN
  else if isInf a then (if isInf b then qNaN else inf32 neg)
  else if isInf b then pack neg 0
  else if isZero b then (if isZero a then qNaN else inf32 neg)
  else pack neg (roundUnits (units a * unitsPerOne) (units b))

/-- The position of a value that is no NaN on the number line; -0 and +0 share one place (R18). -/
def orderKey (w : Word) : Int := if isNeg w then -(magBits w : Int) else magBits w

/-- `a < b`, false when either operand is a NaN (R18). -/
def lt32 (a b : Word) : Bool := !isNaN a && !isNaN b && decide (orderKey a < orderKey b)

/-- `a > b` (R18). -/
def gt32 (a b : Word) : Bool := lt32 b a

/-- `a >= b`, false when either operand is a NaN (R18). -/
def ge32 (a b : Word) : Bool := !isNaN a && !isNaN b && decide (orderKey b ≤ orderKey a)

/-- `a <= b`, false when either operand is a NaN (R18). -/
def le32 (a b : Word) : Bool := ge32 b a

/-- `a == b`, false when either operand is a NaN (R18). -/
def eq32 (a b : Word) : Bool := !isNaN a && !isNaN b && decide (orderKey a = orderKey b)

/-- `a` with bit 31 cleared, a NaN included (R18). -/
def abs32 (a : Word) : Word := pack false (magBits a)

/-- The order that also puts -0 below +0, used by maxnum and minnum (R19). -/
def totalKey (w : Word) : Int := if isNeg w then -(magBits w : Int) - 1 else magBits w

/-- IEEE 754-2019 maximumNumber (R19). -/
def maxnum (a b : Word) : Word :=
  if isNaN a then (if isNaN b then qNaN else b)
  else if isNaN b then a
  else if totalKey a < totalKey b then b else a

/-- IEEE 754-2019 minimumNumber (R19). -/
def minnum (a b : Word) : Word :=
  if isNaN a then (if isNaN b then qNaN else b)
  else if isNaN b then a
  else if totalKey b < totalKey a then b else a

/-- `minnum (maxnum x lo) hi`; a NaN `x` yields `lo` (R19). -/
def clamp32 (x lo hi : Word) : Word := minnum (maxnum x lo) hi

/-- Conversion to an int32 by rounding toward zero: a NaN gives 0, values out of range saturate
(R20). -/
def truncSat (x : Word) : Int :=
  if isNaN x then 0
  else if isInf x then (if isNeg x then -2147483648 else 2147483647)
  else
    let t := units x / unitsPerOne
    if isNeg x then max (-(t : Int)) (-2147483648) else min (t : Int) 2147483647

/-- The binary32 of an integer, exact for |n| at most 2^24 (R20). -/
def f32OfInt (n : Int) : Word := roundSigned false (n * unitsPerOne)

/-- The residue of an integer in [0, 16) (R20). -/
def mod16 (n : Int) : Band := ⟨(n % 16).toNat, by omega⟩

end Sys2Proof.Machine
end

