-- ==== Sys2Proof/Config.lean ====
section
/-!
DEFINITION. The implementation parameters the spec leaves open (R9, R10, R11, R151, R305), as ONE
opaque constant `Config.free`. It has no body: nothing can evaluate it, and what is proved of the
model holds for every core that meets the laws the spec states for its parameters, which are the
proof fields of `Params`. The fixed constants and the accessors stand in Machine/Parameters.lean.
-/

namespace Sys2Proof.Config

open Sys2Proof.Machine

/-- The open parameters of one core, with the laws the spec states for them. -/
structure Params where
  /-- F0, the centre frequencies in Hz (R9). -/
  f0 : Band → Word
  f0_first : f0 0 = 0x42FA0000#32
  f0_seventh : f0 7 = 0x441D8000#32
  f0_last : f0 15 = 0x45C80000#32
  f0_ascending : ∀ i j : Band, i < j → lt32 (f0 i) (f0 j) = true
  /-- GAIN_DB, the fixed gain argument of COEF (R10). -/
  gainDb : Word
  /-- COEF(f0, fs, Q, gainDb), of which nothing is assumed but that it is a function (R130). -/
  coef : Word → Word → Word → Word → Coef
  /-- SLEW_POW(base, k) with its four named laws (R170). -/
  slewPow : Word → Word → Word
  pow0 : ∀ base k : Word, isZero k = true → slewPow base k = 0x3F800000#32
  pow1 : ∀ base : Word, slewPow base 0x3F800000#32 = base
  powPos : ∀ base k : Word, isFinite base = true → lt32 0#32 base = true → isFinite k = true →
    isFinite (slewPow base k) = true ∧ lt32 0#32 (slewPow base k) = true
  powMono : ∀ base k1 k2 : Word, lt32 0#32 base = true → lt32 base 0x3F800000#32 = true →
    le32 k1 k2 = true → ge32 (slewPow base k1) (slewPow base k2) = true
  /-- The scale of each control-voltage input (R11). -/
  cvmapAttack : Word → Word
  cvmapDecay : Word → Word
  cvmapCarq : Word → Word
  cvmapModq : Word → Word
  /-- The clamp bounds of the two Q control voltages, CARQ_CV_LO <= CARQ_CV_HI and the same for
  MODQ (R151). -/
  carqCvLo : Word
  carqCvHi : Word
  carqCv_le : le32 carqCvLo carqCvHi = true
  modqCvLo : Word
  modqCvHi : Word
  modqCv_le : le32 modqCvLo modqCvHi = true
  /-- STEP_LATENCY and CONFIGURE_LATENCY, positive integers of clock cycles (R11, R305). -/
  stepLatency : Nat
  stepLatency_pos : 0 < stepLatency
  configureLatency : Nat
  configureLatency_pos : 0 < configureLatency

/-- The core's parameters, free within the laws of `Params`. The bracketed argument only carries the
fact that some parameters meet the laws, without which no constant of this type could exist. -/
opaque free [Inhabited Params] : Params

/-- An ascending table with the three given frequencies; it only shows that one exists. -/
def someF0 (i : Band) : Word :=
  if i = 0 then 0x42FA0000#32
  else if i < 7 then 0x42FA0000#32 + BitVec.ofNat 32 i.val
  else if i = 7 then 0x441D8000#32
  else if i < 15 then 0x441D8000#32 + BitVec.ofNat 32 i.val
  else 0x45C80000#32

/-- A function with the four laws of R170; it only shows that one exists. -/
def somePow (base k : Word) : Word :=
  if k = 0x3F800000#32 then base
  else if le32 0x3F800000#32 k && (lt32 0#32 base && lt32 base 0x3F800000#32) then base
  else 0x3F800000#32

theorem somePow_zero (base k : Word) (h : isZero k = true) : somePow base k = 0x3F800000#32 := by
  have hk : k ≠ 0x3F800000#32 := by rintro rfl; exact absurd h (by decide)
  have hm : magBits k = 0 := by simpa [isZero] using h
  have hle : le32 0x3F800000#32 k = false := by
    have h1 : orderKey 0x3F800000#32 = 1065353216 := by decide
    have h2 : orderKey k = 0 := by simp [orderKey, hm]
    simp [le32, ge32, h1, h2]
  simp [somePow, hk, hle]

theorem somePow_pos (base k : Word) (hb : isFinite base = true) (h0 : lt32 0#32 base = true) :
    isFinite (somePow base k) = true ∧ lt32 0#32 (somePow base k) = true := by
  unfold somePow
  split
  · exact ⟨hb, h0⟩
  · split
    · exact ⟨hb, h0⟩
    · decide

theorem somePow_mono (base k1 k2 : Word) (h0 : lt32 0#32 base = true)
    (h1 : lt32 base 0x3F800000#32 = true) (hk : le32 k1 k2 = true) :
    ge32 (somePow base k1) (somePow base k2) = true := by
  have hbb : ge32 base base = true := by
    simp [lt32, ge32] at h0 ⊢; exact h0.1.2
  have hob : ge32 0x3F800000#32 base = true := by
    simp [lt32, ge32] at h1 ⊢; exact ⟨⟨h1.1.2, h1.1.1⟩, h1.2.le⟩
  have hself : le32 0x3F800000#32 0x3F800000#32 = true := by decide
  have htrans : le32 0x3F800000#32 k1 = true → le32 0x3F800000#32 k2 = true := by
    simp only [le32, ge32, Bool.and_eq_true, decide_eq_true_eq] at hk ⊢
    rintro ⟨⟨-, h⟩, h'⟩
    exact ⟨⟨hk.1.1, h⟩, h'.trans hk.2⟩
  by_cases e1 : k1 = 0x3F800000#32
  · subst e1
    have : somePow base k2 = base := by
      unfold somePow; split <;> simp_all
    rw [this]; simp [somePow, hbb]
  · by_cases l1 : le32 0x3F800000#32 k1 = true
    · have e2 : somePow base k2 = base := by
        unfold somePow; split <;> simp_all
      have e3 : somePow base k1 = base := by simp [somePow, l1, h0, h1]
      rw [e2, e3]; exact hbb
    · have e3 : somePow base k1 = 0x3F800000#32 := by simp [somePow, l1, e1]
      rw [e3]
      unfold somePow
      split
      · exact hob
      · split
        · exact hob
        · decide

/-- Parameters that meet every law; it only shows that the laws can be met, and no statement can see
it through `free`. -/
def someParams : Params where
  f0 := someF0
  f0_first := by decide
  f0_seventh := by decide
  f0_last := by decide
  f0_ascending := by decide
  gainDb := 0
  coef := fun _ _ _ _ => ⟨0, 0, 0, 0, 0⟩
  slewPow := somePow
  pow0 := somePow_zero
  pow1 := fun base => by simp [somePow]
  powPos := fun base k hb h0 _ => somePow_pos base k hb h0
  powMono := somePow_mono
  cvmapAttack := id
  cvmapDecay := id
  cvmapCarq := id
  cvmapModq := id
  carqCvLo := 0
  carqCvHi := 0
  carqCv_le := by decide
  modqCvLo := 0
  modqCvHi := 0
  modqCv_le := by decide
  stepLatency := 1
  stepLatency_pos := by decide
  configureLatency := 1
  configureLatency_pos := by decide

/-- The parameters of the core. -/
def params : Params := @free ⟨someParams⟩

end Sys2Proof.Config
end

