-- ==== Sys2Proof/Machine/Parameters.lean ====
section
/-!
DEFINITION. The numeric constants the spec fixes (R8, R12, R13) and the core's parameters as functions:
F0 and COEF's fixed argument (R9, R10), the configuration functions and bounds (R11), the latencies.
-/

namespace Sys2Proof.Machine

/-- +0.0. -/
def zero32 : Word := 0x00000000#32

/-- NORM = 5.0, the voltage divisor and output multiplier (R12). -/
def norm : Word := 0x40A00000#32

/-- MIN_SLEW = 0.001 (R12). -/
def minSlew : Word := 0x3A83126F#32

/-- MAX_SLEW = 500.0 (R12). -/
def maxSlew : Word := 0x43FA0000#32

/-- SHAPE_SCALE = 0.1 (R12). -/
def shapeScale : Word := 0x3DCCCCCD#32

/-- Q_HYST = 0.1, the hysteresis threshold (R12). -/
def qHyst : Word := 0x3DCCCCCD#32

/-- Q_MIN = 1.0 and Q_MAX = 15.0 (R12). -/
def qMin : Word := 0x3F800000#32
def qMax : Word := 0x41700000#32

/-- SLEW_CV_LIM = 0.25 and its negative (R12, R171). -/
def slewCvLim : Word := 0x3E800000#32
def slewCvLimNeg : Word := 0xBE800000#32

/-- 2.0, the Nyquist factor of FS_OK (R235). -/
def two32 : Word := 0x40000000#32

/-- F0[i] (R9): the three frequencies the source gives, and the core's own for the other bands. -/
def f0 (i : Band) : Word :=
  if i = 0 then 0x42FA0000#32
  else if i = 7 then 0x441D8000#32
  else if i = 15 then 0x45C80000#32
  else Config.params.f0 i

/-- GAIN_DB (R10). -/
def gainDb : Word := Config.params.gainDb

/-- COEF(f0, fs, Q, gainDb) (R130). -/
def coefFn (freq fs q gain : Word) : Coef := Config.params.coef freq fs q gain

/-- SLEW_POW(base, k) (R170). -/
def slewPow (base k : Word) : Word := Config.params.slewPow base k

/-- CVMAP_ATTACK, CVMAP_DECAY, CVMAP_CARQ, CVMAP_MODQ (R11). -/
def cvmapAttack (v : Word) : Word := Config.params.cvmapAttack v
def cvmapDecay (v : Word) : Word := Config.params.cvmapDecay v
def cvmapCarq (v : Word) : Word := Config.params.cvmapCarq v
def cvmapModq (v : Word) : Word := Config.params.cvmapModq v

/-- LATENCY(op), in clock cycles (R305). -/
def latency : BusyOp → Nat
  | .step => Config.params.stepLatency
  | .configure => Config.params.configureLatency

end Sys2Proof.Machine
end

