-- ==== Sys2Proof/Machine/Ops.lean ====
section
/-!
DEFINITION. The named operations on the state that several instructions share: raising and clearing
errors (R262, R33), an access error (R267), latching the snapshot when a command is accepted (R56,
R230). The core has no traps: an error sets its bit and ends the access (R260), and clearing the
bit is all the return there is (R270).
-/

namespace Sys2Proof.Machine

/-- `raise Error(BIT)`: the bit is set and nothing else changes (R262). -/
def raiseError (e : ErrBit) (s : State) : State := { s with err := s.err ||| e.mask }

/-- A write of `w` to STATUS (R33, R270). -/
def clearErrors (w : Word) (s : State) : State := { s with err := errAfterClear s.err w }

/-- A read presented in this cycle puts `w` on the read-data port (R71, R72). -/
def returnData (w : Word) (s : State) : State := { s with rdata := some w }

/-- A read that is an access error: ERR_BUS is raised and the read returns 0x00000000 (R72, R267). -/
def busErrorRead (s : State) : State := returnData 0x00000000#32 (raiseError .bus s)

/-- A write that is an access error: ERR_BUS is raised and nothing is stored (R73, R267). -/
def busErrorWrite (s : State) : State := raiseError .bus s

/-- Acceptance of a STEP or CONFIGURE: L takes every parameter and input register, and the sequencer
becomes BUSY for the command's latency (R56, R230). -/
def accept (op : BusyOp) (s : State) : State :=
  { s with snap := s.regs, seq := .busy op (latency op) }

end Sys2Proof.Machine
end

