-- ==== Sys2Proof/Machine/Operands.lean ====
section
/-!
DEFINITION. The operands: the register map (R31, R77), the named register groups with their ranges
(R13, R37, R38, R39, R42, R43), what a read of each register returns (R40) and what a write stores.
-/

namespace Sys2Proof.Machine

/-- The knob registers with one word each (R38). -/
inductive Knob where
  | attack
  | decay
  | carq
  | modq
  | bofs
  | modGain
  | carGain
  | outGain
  deriving DecidableEq, Repr

/-- The signal and control-voltage input registers with one word each (R39). -/
inductive Input where
  | modIn
  | carIn
  | attackCv
  | decayCv
  | carqCv
  | modqCv
  | bofsCv
  deriving DecidableEq, Repr

/-- The registers of the window (R31). -/
inductive Reg where
  | id
  | cmd
  | status
  | sampleRate
  | connect
  | knob (k : Knob)
  | bandGain (i : Band)
  | input (j : Input)
  | insertIn (i : Band)
  | out
  | bandOffset
  | modqApplied
  | carqApplied
  | fsApplied
  | envOut (i : Band)
  | peak (i : Band)
  | env (i : Band)
  deriving DecidableEq, Repr

def Knob.offset : Knob → Nat
  | .attack => 0x020
  | .decay => 0x024
  | .carq => 0x028
  | .modq => 0x02C
  | .bofs => 0x030
  | .modGain => 0x034
  | .carGain => 0x038
  | .outGain => 0x03C

def Input.offset : Input → Nat
  | .modIn => 0x080
  | .carIn => 0x084
  | .attackCv => 0x088
  | .decayCv => 0x08C
  | .carqCv => 0x090
  | .modqCv => 0x094
  | .bofsCv => 0x098

/-- The byte offset of a register, the first column of R31. -/
def Reg.offset : Reg → Offset
  | .id => 0x000#9
  | .cmd => 0x004#9
  | .status => 0x008#9
  | .sampleRate => 0x00C#9
  | .connect => 0x010#9
  | .knob k => BitVec.ofNat 9 k.offset
  | .bandGain i => BitVec.ofNat 9 (0x040 + 4 * i.val)
  | .input j => BitVec.ofNat 9 j.offset
  | .insertIn i => BitVec.ofNat 9 (0x0C0 + 4 * i.val)
  | .out => 0x100#9
  | .bandOffset => 0x104#9
  | .modqApplied => 0x108#9
  | .carqApplied => 0x10C#9
  | .fsApplied => 0x110#9
  | .envOut i => BitVec.ofNat 9 (0x140 + 4 * i.val)
  | .peak i => BitVec.ofNat 9 (0x180 + 4 * i.val)
  | .env i => BitVec.ofNat 9 (0x1C0 + 4 * i.val)

/-- The band selected by the word offset inside a block of sixteen registers. -/
def bandOfOffset (off : Offset) : Band := ⟨off.toNat / 4 % 16, by omega⟩

/-- The single registers of R31, those outside the blocks of sixteen. -/
def singleRegAt (off : Offset) : Option Reg :=
  match off.toNat with
  | 0x000 => some .id
  | 0x004 => some .cmd
  | 0x008 => some .status
  | 0x00C => some .sampleRate
  | 0x010 => some .connect
  | 0x020 => some (.knob .attack)
  | 0x024 => some (.knob .decay)
  | 0x028 => some (.knob .carq)
  | 0x02C => some (.knob .modq)
  | 0x030 => some (.knob .bofs)
  | 0x034 => some (.knob .modGain)
  | 0x038 => some (.knob .carGain)
  | 0x03C => some (.knob .outGain)
  | 0x080 => some (.input .modIn)
  | 0x084 => some (.input .carIn)
  | 0x088 => some (.input .attackCv)
  | 0x08C => some (.input .decayCv)
  | 0x090 => some (.input .carqCv)
  | 0x094 => some (.input .modqCv)
  | 0x098 => some (.input .bofsCv)
  | 0x100 => some .out
  | 0x104 => some .bandOffset
  | 0x108 => some .modqApplied
  | 0x10C => some .carqApplied
  | 0x110 => some .fsApplied
  | _ => none

/-- The register at a 4-byte-aligned offset, `none` where the offset is unmapped (R31, R77). -/
def regAt (off : Offset) : Option Reg :=
  match off.toNat / 64 with
  | 1 => some (.bandGain (bandOfOffset off))
  | 3 => some (.insertIn (bandOfOffset off))
  | 5 => some (.envOut (bandOfOffset off))
  | 6 => some (.peak (bandOfOffset off))
  | 7 => some (.env (bandOfOffset off))
  | _ => singleRegAt off

/-- The value of ID: REV = 1, NBANKS = 2, NSTAGES = 2, NBANDS = 16 (R32). -/
def idValue : Word := 0x0001#16 ++ 0x2#4 ++ 0x2#4 ++ 0x10#8

/-- Range of a knob register as binary32 (R13, R42). -/
def Knob.lo : Knob → Word
  | .attack => 0x00000000#32
  | .decay => 0x00000000#32
  | .carq => 0x3F800000#32
  | .modq => 0x3F800000#32
  | .bofs => 0xC1780000#32
  | .modGain => 0x3F800000#32
  | .carGain => 0x3F800000#32
  | .outGain => 0x3F800000#32

def Knob.hi : Knob → Word
  | .attack => 0x3E800000#32
  | .decay => 0x3E800000#32
  | .carq => 0x41700000#32
  | .modq => 0x41700000#32
  | .bofs => 0x41780000#32
  | .modGain => 0x41200000#32
  | .carGain => 0x41200000#32
  | .outGain => 0x41200000#32

/-- Range of BANDGAIN[i], [0, 2] (R13). -/
def bandGainLo : Word := 0x00000000#32
def bandGainHi : Word := 0x40000000#32

def Regs.knob (r : Regs) : Knob → Word
  | .attack => r.attackKnob
  | .decay => r.decayKnob
  | .carq => r.carqKnob
  | .modq => r.modqKnob
  | .bofs => r.bofsKnob
  | .modGain => r.modGainKnob
  | .carGain => r.carGainKnob
  | .outGain => r.outGainKnob

def Regs.setKnob (r : Regs) (k : Knob) (v : Word) : Regs :=
  match k with
  | .attack => { r with attackKnob := v }
  | .decay => { r with decayKnob := v }
  | .carq => { r with carqKnob := v }
  | .modq => { r with modqKnob := v }
  | .bofs => { r with bofsKnob := v }
  | .modGain => { r with modGainKnob := v }
  | .carGain => { r with carGainKnob := v }
  | .outGain => { r with outGainKnob := v }

def Regs.input (r : Regs) : Input → Word
  | .modIn => r.modIn
  | .carIn => r.carIn
  | .attackCv => r.attackCv
  | .decayCv => r.decayCv
  | .carqCv => r.carqCv
  | .modqCv => r.modqCv
  | .bofsCv => r.bofsCv

def Regs.setInput (r : Regs) (j : Input) (v : Word) : Regs :=
  match j with
  | .modIn => { r with modIn := v }
  | .carIn => { r with carIn := v }
  | .attackCv => { r with attackCv := v }
  | .decayCv => { r with decayCv := v }
  | .carqCv => { r with carqCv := v }
  | .modqCv => { r with modqCv := v }
  | .bofsCv => { r with bofsCv := v }

/-- Knob legalisation: what a write of `v` stores in knob `k` (R42). -/
def legalKnob (k : Knob) (v : Word) : Word := clamp32 v k.lo k.hi

/-- What a write of `v` stores in a BANDGAIN register (R42). -/
def legalBandGain (v : Word) : Word := clamp32 v bandGainLo bandGainHi

/-- What a write of `w` stores in CONNECT: bits 22:0, zero-extended (R43, R73). -/
def legalConnect (w : Word) : Word := (w.extractLsb' 0 23).zeroExtend 32

/-- The CONNECT bits (R37). -/
def insertConn (r : Regs) (i : Band) : Bool := r.connect.getLsbD i.val
def modConn (r : Regs) : Bool := r.connect.getLsbD 16
def carConn (r : Regs) : Bool := r.connect.getLsbD 17
def attackCvConn (r : Regs) : Bool := r.connect.getLsbD 18
def decayCvConn (r : Regs) : Bool := r.connect.getLsbD 19
def carqCvConn (r : Regs) : Bool := r.connect.getLsbD 20
def modqCvConn (r : Regs) : Bool := r.connect.getLsbD 21
def bofsCvConn (r : Regs) : Bool := r.connect.getLsbD 22

/-- The value of a register at a read (R31 to R43, R72): CMD reads 0, the output registers are views
of the internal state (R40). -/
def regValue (s : State) : Reg → Word
  | .id => idValue
  | .cmd => 0x00000000#32
  | .status => statusWord s
  | .sampleRate => s.regs.sampleRate
  | .connect => s.regs.connect
  | .knob k => s.regs.knob k
  | .bandGain i => s.regs.bandGain.get i
  | .input j => s.regs.input j
  | .insertIn i => s.regs.insertIn.get i
  | .out => s.out
  | .bandOffset => s.bandOffset
  | .modqApplied => s.qApplied.mod
  | .carqApplied => s.qApplied.car
  | .fsApplied => s.fs
  | .envOut i => s.envOut.get i
  | .peak i => s.peak.get i
  | .env i => s.env.get i

/-- The registers a write stores into: the parameter and input registers (R30, R73). -/
def Reg.isStored : Reg → Bool
  | .sampleRate => true
  | .connect => true
  | .knob _ => true
  | .bandGain _ => true
  | .input _ => true
  | .insertIn _ => true
  | _ => false

/-- The read-only registers, to which a write is an access error (R76). -/
def Reg.isReadOnly : Reg → Bool
  | .cmd => false
  | .status => false
  | r => !r.isStored

/-- What a write of `w` leaves in the parameter and input registers (R73): a knob takes the legalised
value (R42), CONNECT bits 22:0 and every other one the word itself (R43). -/
def storeReg (r : Regs) (reg : Reg) (w : Word) : Regs :=
  match reg with
  | .sampleRate => { r with sampleRate := w }
  | .connect => { r with connect := legalConnect w }
  | .knob k => r.setKnob k (legalKnob k w)
  | .bandGain i => { r with bandGain := r.bandGain.set i (legalBandGain w) }
  | .input j => r.setInput j w
  | .insertIn i => { r with insertIn := r.insertIn.set i w }
  | _ => r

end Sys2Proof.Machine
end

