-- ==== Sys2Proof/Machine/Biquad.lean ====
section
/-!
DEFINITION. One biquad filter stage (41_biquad.md): its coefficients (R130 to R132, R134) and the
direct-form-I difference equation with its history shift (R133).
-/

namespace Sys2Proof.Machine

/-- COEF(F0[i], fs, Q, GAIN_DB), the coefficients of every biquad of band `i` (R132, R134). -/
def bandCoef (i : Band) (fs q : Word) : Coef := coefFn (f0 i) fs q gainDb

/-- The output of BQ_PROCESS, each operation rounded, left to right (R133). -/
def bqOutput (c : Coef) (h : Hist) (x : Word) : Word :=
  sub32 (sub32 (add32 (add32 (mul32 c.b0 x) (mul32 c.b1 h.x1)) (mul32 c.b2 h.x2))
    (mul32 c.a1 h.y1)) (mul32 c.a2 h.y2)

/-- The history after BQ_PROCESS took `x` and gave `y` (R133). -/
def bqShift (h : Hist) (x y : Word) : Hist := ⟨x, h.x1, y, h.y1⟩

/-- BQ_PROCESS: the output and the new history of one biquad (R133, R135). -/
def bqProcess (c : Coef) (h : Hist) (x : Word) : Word × Hist :=
  (bqOutput c h x, bqShift h x (bqOutput c h x))

end Sys2Proof.Machine
end

