-- ==== Sys2Proof/Machine/FilterBank.lean ====
section
/-!
DEFINITION. The two filter banks (42_filter_bank.md): the shared Q with hysteresis (R150 to R154) and the
two-stage cascade (R155).
-/

namespace Sys2Proof.Machine

/-- QCV(b), the Q control-voltage contribution of a bank (R151). -/
def qCv (b : Bank) (l : Regs) : Word :=
  match b with
  | .car =>
    if carqCvConn l then clamp32 (cvmapCarq l.carqCv) Config.params.carqCvLo Config.params.carqCvHi
    else zero32
  | .mod =>
    if modqCvConn l then clamp32 (cvmapModq l.modqCv) Config.params.modqCvLo Config.params.modqCvHi
    else zero32

/-- The Q knob of a bank (R150). -/
def qKnob (b : Bank) (l : Regs) : Word :=
  match b with
  | .car => l.carqKnob
  | .mod => l.modqKnob

/-- Q_TARGET(b), the clamped requested Q (R150). -/
def qTarget (b : Bank) (l : Regs) : Word := clamp32 (add32 (qKnob b l) (qCv b l)) qMin qMax

/-- Q_HYST_TEST(b, t) on the applied Q of the bank (R152). -/
def qHystTest (applied t : Word) : Bool := ge32 (abs32 (sub32 t applied)) qHyst

/-- The coefficient file of one bank with COEF(F0[i], fs, q, GAIN_DB) in both stages of every band
(R132, R134, R153). -/
def bankCoef (fs q : Word) : Lanes (Stages Coef) :=
  Lanes.ofFn fun i => ⟨bandCoef i fs q, bandCoef i fs q⟩

/-- Q_UPDATE(b, t): where the test passes, BQ_SETQ of all 32 biquads of the bank and the new applied
Q, otherwise nothing; histories are kept (R153, R132). -/
def qUpdate (b : Bank) (t : Word) (s : State) : State :=
  if qHystTest (s.qApplied.get b) t then
    { s with coef := s.coef.set b (bankCoef s.fs t), qApplied := s.qApplied.set b t }
  else s

/-- CASCADE on the two stages of one band: the output of stage 1, fed by stage 0, and the two new
histories (R155). -/
def cascade (c : Stages Coef) (h : Stages Hist) (x : Word) : Word × Stages Hist :=
  let first := bqProcess c.s0 h.s0 x
  let second := bqProcess c.s1 h.s1 first.1
  (second.1, ⟨first.2, second.2⟩)

/-- CASCADE(b, i, x) for the state's files, without its history update (R155, R156). -/
def cascadeAt (b : Bank) (i : Band) (x : Word) (s : State) : Word × Stages Hist :=
  cascade ((s.coef.get b).get i) ((s.hist.get b).get i) x

/-- Every history of bank `b` after each of its bands has processed `x` (R156, R157, R158). -/
def bankHist (b : Bank) (x : Word) (s : State) : Lanes (Stages Hist) :=
  Lanes.ofFn fun i => (cascadeAt b i x s).2

end Sys2Proof.Machine
end

