-- ==== Sys2Proof/Machine/Envelope.lean ====
section
/-!
DEFINITION. The sixteen envelope followers (43_envelope.md): the slew rates (R170 to R172) and the
attack, decay and hold branches (R173 to R176).
-/

namespace Sys2Proof.Machine

/-- The two slew controls (R171). -/
inductive Slew where
  | attack
  | decay
  deriving DecidableEq, Repr

/-- The control-voltage contribution of a slew control, clamped to ±0.25, +0.0 where disconnected
(R171). -/
def slewCv (which : Slew) (l : Regs) : Word :=
  match which with
  | .attack =>
    if attackCvConn l then clamp32 (cvmapAttack l.attackCv) slewCvLimNeg slewCvLim else zero32
  | .decay =>
    if decayCvConn l then clamp32 (cvmapDecay l.decayCv) slewCvLimNeg slewCvLim else zero32

/-- SLEW_KNOB(which), the unclamped sum of the knob and its control voltage (R171). -/
def slewKnob (which : Slew) (l : Regs) : Word :=
  match which with
  | .attack => add32 l.attackKnob (slewCv .attack l)
  | .decay => add32 l.decayKnob (slewCv .decay l)

/-- SLEW_BASE = MIN_SLEW / MAX_SLEW in binary32 (R172). -/
def slewBase : Word := div32 minSlew maxSlew

/-- SLEW_RATE(a) (R172). -/
def slewRate (a : Word) : Word := mul32 maxSlew (slewPow slewBase a)

/-- ((rate * 0.1) * gap) / fs, the movement of both branches (R173, R174). -/
def slewDelta (rate gap fs : Word) : Word := div32 (mul32 (mul32 rate shapeScale) gap) fs

/-- ENV_ATTACK: the rise toward the peak `p`, clamped from above at it (R173). -/
def envAttack (c p rate fs : Word) : Word := minnum (add32 c (slewDelta rate (sub32 p c) fs)) p

/-- ENV_DECAY: the fall toward the peak `p`, clamped from below at it (R174). -/
def envDecay (c p rate fs : Word) : Word := maxnum (sub32 c (slewDelta rate (sub32 c p) fs)) p

/-- The envelope after ENV_UPDATE with peak `p`: attack, decay or hold (R175, R176). -/
def envNext (c p rAtt rDec fs : Word) : Word :=
  if gt32 p c then envAttack c p rAtt fs
  else if lt32 p c then envDecay c p rDec fs
  else c

/-- ENV_OUT: the envelope times 5.0 (R211). -/
def envOutOf (e : Word) : Word := mul32 e norm

end Sys2Proof.Machine
end

