-- ==== Sys2Proof/Machine/Router.lean ====
section
/-!
DEFINITION. The band offset and the band-routing multiplexer (44_router.md).
-/

namespace Sys2Proof.Machine

/-- BOFS_RAW: the knob truncated to an integer, the control voltage added to it and the sum truncated
again where it is connected (R190, R191). -/
def bofsRaw (l : Regs) : Int :=
  let k := truncSat l.bofsKnob
  if bofsCvConn l then truncSat (add32 (f32OfInt k) l.bofsCv) else k

/-- BOFS_WRAP, the literal wrap rule with span 16 (R192, 90_conflicts.md C4). -/
def bofsWrap (n : Int) : Int := if n ≤ -16 then 15 else if 16 ≤ n then -15 else n

/-- BOFS_STEP: the band offset of this STEP, as an int32 (R193). -/
def bofsStep (s : State) : State :=
  { s with bandOffset := BitVec.ofInt 32 (bofsWrap (bofsRaw s.snap)) }

/-- ROT(i) = mod16(i + S.bandOffset) (R194). -/
def rot (s : State) (i : Band) : Band := mod16 ((i.val : Int) + s.bandOffset.toInt)

/-- ROUTE(i): the connected insert at the rotated index over 5, or that band's envelope (R195,
R196, R197). -/
def route (s : State) (i : Band) : Word :=
  let r := rot s i
  if insertConn s.snap r then div32 (s.snap.insertIn.get r) norm else s.env.get r

end Sys2Proof.Machine
end

