-- ==== Sys2Proof/Machine/GainSum.lean ====
section
/-!
DEFINITION. Input scaling, gain multipliers, summation and output scaling (45_gain_sum.md).
-/

namespace Sys2Proof.Machine

/-- IN_SCALE for the modulator: (vm / 5.0) * MODGAIN_KNOB, vm = +0.0 where disconnected (R210). -/
def modSample (l : Regs) : Word :=
  mul32 (div32 (if modConn l then l.modIn else zero32) norm) l.modGainKnob

/-- IN_SCALE for the carrier: (vc / 5.0) * CARGAIN_KNOB (R210). -/
def carSample (l : Regs) : Word :=
  mul32 (div32 (if carConn l then l.carIn else zero32) norm) l.carGainKnob

/-- BAND_TERM: (yc * k) * BANDGAIN (R212). -/
def bandTerm (yc k gain : Word) : Word := mul32 (mul32 yc k) gain

/-- SUM: the running sum from +0.0 in band order 0 to 15 (R213). -/
def sumTerms (t : Lanes Word) : Word := bands.foldl (fun acc i => add32 acc (t.get i)) zero32

/-- OUT_SCALE: (acc * 5.0) * OUTGAIN_KNOB (R214). -/
def outScale (acc gain : Word) : Word := mul32 (mul32 acc norm) gain

end Sys2Proof.Machine
end

