-- ==== Sys2Proof/Machine/Datapath.lean ====
section
/-!
DEFINITION. What a STEP and a CONFIGURE compute (R232, R236), committed together when the sequencer
completes them (R233, R305). The sixteen bands are computed side by side, as R21, R158 and R176
allow; Machine/Sequential.lean has the loops in the order R232 writes them.
-/

namespace Sys2Proof.Machine

/-- Step 5 of R232: every modulator cascade, envelope update and envelope output, for the input
sample `xm` and this STEP's two rates. -/
def analyse (xm rAtt rDec : Word) (s : State) : State :=
  let peak := Lanes.ofFn fun i => abs32 (cascadeAt .mod i xm s).1
  let env := Lanes.ofFn fun i => envNext (s.env.get i) (peak.get i) rAtt rDec s.fs
  { s with
    hist := s.hist.set .mod (bankHist .mod xm s)
    peak := peak
    env := env
    envOut := Lanes.ofFn fun i => envOutOf (env.get i) }

/-- The sixteen band terms of step 6 of R232, from the envelopes of this STEP. -/
def bandTerms (xc : Word) (s : State) : Lanes Word :=
  Lanes.ofFn fun i => bandTerm (cascadeAt .car i xc s).1 (route s i) (s.snap.bandGain.get i)

/-- Steps 6 and 7 of R232: every carrier cascade and band term, their sum and the output. -/
def synthesise (xc : Word) (s : State) : State :=
  { s with
    hist := s.hist.set .car (bankHist .car xc s)
    out := outScale (sumTerms (bandTerms xc s)) s.snap.outGainKnob }

/-- Steps 1 and 4 of R232: the band offset, then the Q update of each bank. -/
def prepare (s : State) : State :=
  qUpdate .car (qTarget .car s.snap) (qUpdate .mod (qTarget .mod s.snap) (bofsStep s))

/-- The state after the whole computation of a STEP on the snapshot L (R232). -/
def stepCommit (s : State) : State :=
  synthesise (carSample s.snap)
    (analyse (modSample s.snap) (slewRate (slewKnob .attack s.snap))
      (slewRate (slewKnob .decay s.snap)) (prepare s))

/-- FS_OK(fs): finite and above 2.0 * F0[15] (R235). -/
def fsOk (fs : Word) : Bool := isFinite fs && gt32 fs (mul32 two32 (f0 15))

/-- The state after the whole computation of a CONFIGURE on the snapshot L: the sample rate, both
applied Q values without the hysteresis test, and BQ_REBUILD of all 64 biquads (R236, R134). -/
def configureCommit (s : State) : State :=
  let fs := s.snap.sampleRate
  { s with
    fs := fs
    qApplied := ⟨qTarget .mod s.snap, qTarget .car s.snap⟩
    coef := ⟨bankCoef fs (qTarget .mod s.snap), bankCoef fs (qTarget .car s.snap)⟩
    configured := true }

/-- Completion of a pending command: its writes take effect and the sequencer becomes IDLE (R233,
R236). -/
def complete (op : BusyOp) (s : State) : State :=
  match op with
  | .step => { stepCommit s with seq := .idle }
  | .configure => { configureCommit s with seq := .idle }

/-- One cycle of the sequencer: the count goes down by one and the command completes in the cycle it
reaches 0 (R305). -/
def tick (s : State) : State :=
  match s.seq with
  | .idle => s
  | .busy op n => if n ≤ 1 then complete op s else { s with seq := .busy op (n - 1) }

end Sys2Proof.Machine
end

