-- ==== Sys2Proof/Machine/Commands.lean ====
section
/-!
DEFINITION. The four commands (46_commands.md): what each does in the cycle its word is written to CMD
(R230). A STEP or CONFIGURE is accepted here, and its computation is committed by the sequencer
(Machine/Datapath.lean).
-/

namespace Sys2Proof.Machine

/-- NOP: no state changes, also while BUSY = 1 (R231). -/
def execNop (s : State) : Answer := .next s

/-- STEP: ERR_BUSY while busy, ERR_NOT_CONFIGURED before a CONFIGURE has completed, otherwise
accepted (R230, R232, R264, R265, R268). -/
def execStep (s : State) : Answer :=
  if busyFlag s then .next (raiseError .busy s)
  else if !s.configured then .next (raiseError .notConfigured s)
  else .next (accept .step s)

/-- RESET: ERR_BUSY while busy, otherwise S.bandOffset becomes 0 at once (R230, R234). -/
def execReset (s : State) : Answer :=
  if busyFlag s then .next (raiseError .busy s) else .next { s with bandOffset := 0x00000000#32 }

/-- CONFIGURE: ERR_BUSY while busy, ERR_BAD_FS where the live SAMPLE_RATE fails FS_OK, otherwise
accepted (R230, R235, R236, R266). -/
def execConfigure (s : State) : Answer :=
  if busyFlag s then .next (raiseError .busy s)
  else if !fsOk s.regs.sampleRate then .next (raiseError .badFs s)
  else .next (accept .configure s)

/-- Command(w): a word written to CMD; an illegal one raises ERR_ILLEGAL_CMD, busy or not (R230,
R104, R263). -/
def command (w : Word) (s : State) : Answer :=
  match decodeCommand w with
  | .ok .nop => execNop s
  | .ok .step => execStep s
  | .ok .reset => execReset s
  | .ok .configure => execConfigure s
  | .ok (.rd _) => .next (raiseError .illegalCmd s)
  | .ok (.wr _ _) => .next (raiseError .illegalCmd s)
  | .error _ => .next (raiseError .illegalCmd s)

end Sys2Proof.Machine
end

