-- ==== Sys2Proof/Machine/Bus.lean ====
section
/-!
DEFINITION. The host's register transactions (20_memory.md): MemRead and MemWrite with their checks
(R72, R73), and the instructions RD and WR, which are the accesses with all byte enables set (R237).
-/

namespace Sys2Proof.Machine

/-- The form every access must have: be = 0b1111 and off[1:0] = 0 (R75, R78). -/
def accessFormOk (be : ByteEnables) (off : Offset) : Bool := be == 0b1111#4 && alignedOffset off

/-- MemRead(off, 4) (R72). -/
def memRead (be : ByteEnables) (off : Offset) (s : State) : State :=
  if accessFormOk be off then
    match regAt off with
    | some r => returnData (regValue s r) s
    | none => busErrorRead s
  else busErrorRead s

/-- The effect of a well-formed write of `w` on a register (R73). -/
def writeReg (r : Reg) (w : Word) (s : State) : Answer :=
  if r = .cmd then command w s
  else if r = .status then .next (clearErrors w s)
  else if r.isStored then .next { s with regs := storeReg s.regs r w }
  else .next (busErrorWrite s)

/-- MemWrite(off, 4, w) (R73). -/
def memWrite (be : ByteEnables) (off : Offset) (w : Word) (s : State) : Answer :=
  if accessFormOk be off then
    match regAt off with
    | some r => writeReg r w s
    | none => .next (busErrorWrite s)
  else .next (busErrorWrite s)

/-- RD: a read with be = 0b1111 (R72). -/
def execRd (off : Offset) (s : State) : Answer := .next (memRead 0b1111#4 off s)

/-- WR: a write with be = 0b1111 (R73). -/
def execWr (off : Offset) (w : Word) (s : State) : Answer := memWrite 0b1111#4 off w s

end Sys2Proof.Machine
end

