-- ==== Sys2Proof/Machine/Dispatch.lean ====
section
/-!
DEFINITION. exec: the meaning of each instruction, one arm per constructor.
-/

namespace Sys2Proof.Machine

def exec (i : Instr) (s : State) : Host.Outcome State Fault Refusal :=
  match i with
  | .nop => Sys2Proof.Machine.execNop s
  | .step => Sys2Proof.Machine.execStep s
  | .reset => Sys2Proof.Machine.execReset s
  | .configure => Sys2Proof.Machine.execConfigure s
  | .rd off => Sys2Proof.Machine.execRd off s
  | .wr off w => Sys2Proof.Machine.execWr off w s

end Sys2Proof.Machine
end

