-- ==== Sys2Proof/Machine/Port.lean ====
section
/-!
DEFINITION. The host port (R71): which encoded instruction the pins carry, what the access of one cycle
does, and what one rising edge of `clk` does with `rst_n` low or high.
-/

namespace Sys2Proof.Machine

/-- The encoded instruction an access carries: a well-formed write to CMD presents its word to the
command decoder (R73, opcode_table.json row WR); every other access is a transaction pattern. -/
def fetchForm (p : Pins) : Encoded :=
  if p.we && (p.be == 0b1111#4 && p.addr == Reg.cmd.offset) then .command p.wdata
  else .transaction (makePattern p.we p.be p.addr) p.wdata

/-- The access a rejected form leaves: an illegal command word raises ERR_ILLEGAL_CMD (R263), a
partial or misaligned access is an access error of a read or a write (R267). -/
def rejected (r : Reject) (p : Pins) (s : State) : State :=
  match r with
  | .illegalCommand _ => raiseError .illegalCmd s
  | .partialAccess _ => if p.we then busErrorWrite s else busErrorRead s
  | .misaligned _ => if p.we then busErrorWrite s else busErrorRead s

/-- The access of this cycle, if one is presented (R71). -/
def access (p : Pins) (s : State) : Answer :=
  if p.req then
    match decode (fetchForm p) with
    | .ok i => exec i s
    | .error r => .next (rejected r p s)
  else .next s

/-- The read-data port carries a value only in the cycle after a read, so each cycle begins with none
(R71; log entry 7). -/
def dropData (s : State) : State := { s with rdata := none }

/-- A rising edge with `rst_n` high: the access of the cycle, and the sequencer's count of a command
that was pending before it. Both act on the state of the cycle (R71, R72, R305; log entry 3). -/
def runEdge (p : Pins) (s : State) : Answer :=
  if busyFlag s then
    match access p (dropData s) with
    | .next t => .next (tick t)
    | .fault r => .fault r
    | .refused r => .refused r
  else access p (dropData s)

/-- A rising edge with `rst_n` low: every element takes its power-on value, a pending command is
abandoned, and an access is ignored but that a read returns 0x00000000 (R290, R291). What the host
does next is no element of the core and stays. -/
def resetEdge (p : Pins) (s : State) : State :=
  let t := { State.reset with host := s.host }
  if p.req && !p.we then returnData 0x00000000#32 t else t

/-- One rising edge of `clk`. -/
def clockEdge (p : Pins) (s : State) : Answer :=
  if p.rstN then runEdge p s else .next (resetEdge p s)

/-- The pins of a cycle in which the host does nothing. -/
def idlePins : Pins where
  rstN := true
  req := false
  we := false
  addr := 0
  be := 0
  wdata := 0

/-- The pins that present an encoded instruction: a command is a write of its word to CMD (R230). -/
def pinsOf : Encoded → Pins
  | .command w =>
    { rstN := true, req := true, we := true, addr := Reg.cmd.offset, be := 0b1111#4, wdata := w }
  | .transaction p wdata =>
    { rstN := true, req := true, we := patternWe p, addr := patternAddr p, be := patternBe p,
      wdata := wdata }

/-- The host's next event, an idle cycle where it has none left. -/
def nextEvent (s : State) : HostEvent :=
  match s.host with
  | [] => .edge idlePins
  | e :: _ => e

/-- The state with the host's next event taken off. -/
def popEvent (s : State) : State := { s with host := s.host.tail }

/-- The host presents `e` in the very next cycle. -/
def pushEvent (e : HostEvent) (s : State) : State := { s with host := e :: s.host }

/-- The state whose next cycle presents an opcode-table word; unchanged where the numbering gives no
form. -/
def presentTableWord (s : State) (nbits w : Nat) : State :=
  match encodedOfTableWord nbits w with
  | some e => pushEvent (.edge (pinsOf e)) s
  | none => s

end Sys2Proof.Machine
end

