-- ==== Sys2Proof/Machine/Step.lean ====
section
/-!
DEFINITION. One step of the machine: the host's next event, which is one rising edge of `clk` with its
inputs (R71), or a stopped clock.
-/

namespace Sys2Proof.Machine

/-- One clock cycle. The only stop is a host that stops the clock (R279). -/
def step (s : State) : Host.Outcome State Fault Refusal :=
  match nextEvent s with
  | .edge p => clockEdge p (popEvent s)
  | .stopClock => .fault .clockStopped

/-- The state in which the host presents the given opcode-table word in the very next cycle. -/
def State.withFetchWord (s : State) (nbits w : Nat) : State := presentTableWord s nbits w

end Sys2Proof.Machine
end

