-- ==== Sys2Proof/Machine/Sequential.lean ====
section
/-!
DEFINITION. The same computations as Machine/Datapath.lean, written as the loops of the spec's
pseudocode: one micro-operation at a time on the state, bands in the order 0 to 15 (R21, R132, R133,
R153, R155, R176, R232, R236). No step runs them; that both give the same state is stated for the
provers (R158, R176).
-/

namespace Sys2Proof.Machine

/-- BQ_SETQ(b, i, s, Q) (R132). -/
def seqSetQ (b : Bank) (i : Band) (st : Stage) (q : Word) (s : State) : State :=
  { s with
    coef := s.coef.set b
      ((s.coef.get b).set i (((s.coef.get b).get i).set st (coefFn (f0 i) s.fs q gainDb))) }

/-- BQ_PROCESS(b, i, s, x), giving the output and the state with the new history (R133). -/
def seqProcess (b : Bank) (i : Band) (st : Stage) (x : Word) (s : State) : Word × State :=
  let c := ((s.coef.get b).get i).get st
  let h := ((s.hist.get b).get i).get st
  (bqOutput c h x,
    { s with
      hist := s.hist.set b
        ((s.hist.get b).set i (((s.hist.get b).get i).set st (bqShift h x (bqOutput c h x)))) })

/-- BQ_REBUILD(b, i, s, fs, Q) (R134). -/
def seqRebuild (b : Bank) (i : Band) (st : Stage) (fs q : Word) (s : State) : State :=
  { s with
    coef := s.coef.set b
      ((s.coef.get b).set i (((s.coef.get b).get i).set st (coefFn (f0 i) fs q gainDb))) }

/-- Q_UPDATE(b, t) with its two loops (R153). -/
def seqQUpdate (b : Bank) (t : Word) (s : State) : State :=
  if qHystTest (s.qApplied.get b) t then
    let s1 := bands.foldl (fun s i => seqSetQ b i .s1 t (seqSetQ b i .s0 t s)) s
    { s1 with qApplied := s1.qApplied.set b t }
  else s

/-- CASCADE(b, i, x) (R155). -/
def seqCascade (b : Bank) (i : Band) (x : Word) (s : State) : Word × State :=
  let u := seqProcess b i .s0 x s
  seqProcess b i .s1 u.1 u.2

/-- ENV_UPDATE(i, ym) (R176). -/
def seqEnvUpdate (i : Band) (ym rAtt rDec : Word) (s : State) : State :=
  let p := abs32 ym
  let s1 := { s with peak := s.peak.set i p }
  { s1 with env := s1.env.set i (envNext (s1.env.get i) p rAtt rDec s1.fs) }

/-- ENV_OUT(i) (R211). -/
def seqEnvOut (i : Band) (s : State) : State :=
  { s with envOut := s.envOut.set i (envOutOf (s.env.get i)) }

/-- One pass of step 5's loop (R232). -/
def seqAnalyseBand (xm rAtt rDec : Word) (s : State) (i : Band) : State :=
  let y := seqCascade .mod i xm s
  seqEnvOut i (seqEnvUpdate i y.1 rAtt rDec y.2)

/-- One pass of step 6's loop, with the running sum beside the state (R232, R213). -/
def seqSynthBand (xc : Word) (acc : Word × State) (i : Band) : Word × State :=
  let y := seqCascade .car i xc acc.2
  (add32 acc.1 (bandTerm y.1 (route y.2 i) (y.2.snap.bandGain.get i)), y.2)

/-- The pseudocode of R232, statement by statement. -/
def seqStepCommit (s : State) : State :=
  let l := s.snap
  let s1 := bofsStep s
  let xm := modSample l
  let xc := carSample l
  let rAtt := slewRate (slewKnob .attack l)
  let rDec := slewRate (slewKnob .decay l)
  let s2 := seqQUpdate .mod (qTarget .mod l) s1
  let s3 := seqQUpdate .car (qTarget .car l) s2
  let s4 := bands.foldl (seqAnalyseBand xm rAtt rDec) s3
  let r := bands.foldl (seqSynthBand xc) (zero32, s4)
  { r.2 with out := outScale r.1 l.outGainKnob }

/-- One bank of the pseudocode of R236. -/
def seqConfigureBank (fs : Word) (s : State) (b : Bank) : State :=
  let t := qTarget b s.snap
  let s1 := { s with qApplied := s.qApplied.set b t }
  bands.foldl (fun s i => seqRebuild b i .s1 fs t (seqRebuild b i .s0 fs t s)) s1

/-- The pseudocode of R236, without the sequencer's return to IDLE. -/
def seqConfigureCommit (s : State) : State :=
  let fs := s.snap.sampleRate
  let s1 := { s with fs := fs }
  let s2 := [Bank.mod, Bank.car].foldl (seqConfigureBank fs) s1
  { s2 with configured := true }

end Sys2Proof.Machine
end

