-- ==== Sys2Proof/Safety.lean ====
section
/-!
DEFINITION. The terms claims about the core are stated in: legal register contents (R42, R43), the
invariants of the state (R45, R48, R52, R53, R57), agreement of two states on a part, and the named
property STABLE(COEF) that the spec lets a proof assume (R136).
-/

namespace Sys2Proof.Machine

/-- `v` lies in the range a knob register with bounds `lo` and `hi` can hold: it is no NaN, and -0
counts as below +0 (R19, R42). -/
def inRange (lo hi v : Word) : Prop :=
  isNaN v = false ∧ totalKey lo ≤ totalKey v ∧ totalKey v ≤ totalKey hi

/-- Every knob register holds a value of its range, and the reserved bits of CONNECT are 0 (R42,
R37). -/
structure RegsLegal (r : Regs) : Prop where
  knobs : ∀ k : Knob, inRange k.lo k.hi (r.knob k)
  bandGains : ∀ i : Band, inRange bandGainLo bandGainHi (r.bandGain.get i)
  connect : r.connect.toNat < 8388608

/-- What a pending command found when it was accepted: its count is between 1 and its latency, a STEP
has a configured core, a CONFIGURE a latched rate that passes FS_OK (R53, R230). -/
def SeqLegal (s : State) : Prop :=
  match s.seq with
  | .idle => True
  | .busy .step n => 1 ≤ n ∧ n ≤ latency .step ∧ s.configured = true
  | .busy .configure n =>
    1 ≤ n ∧ n ≤ latency .configure ∧ fsOk s.snap.sampleRate = true

/-- The coefficient file is COEF of the applied sample rate and Q (R48). -/
def CoefApplied (s : State) : Prop :=
  ∀ (b : Bank) (i : Band) (st : Stage),
    ((s.coef.get b).get i).get st = bandCoef i s.fs (s.qApplied.get b)

/-- The invariant of the core. -/
structure CoreInv (s : State) : Prop where
  /-- The live registers are legal (R42, R43). -/
  regs : RegsLegal s.regs
  /-- So is the snapshot (R56). -/
  snap : RegsLegal s.snap
  /-- The sequencer's count and what the pending command relies on (R53, R230). -/
  seq : SeqLegal s
  /-- A configured core has a usable sample rate (R45, R235). -/
  fs : s.configured = true → fsOk s.fs = true
  /-- and each bank has an applied Q in [1, 15] (R150), -/
  applied : s.configured = true → ∀ b : Bank, inRange qMin qMax (s.qApplied.get b)
  /-- and its coefficients are those of the applied rate and Q (R48). -/
  coef : s.configured = true → CoefApplied s
  /-- -15 <= S.bandOffset <= 15 (R52). -/
  offset : -15 ≤ s.bandOffset.toInt ∧ s.bandOffset.toInt ≤ 15
  /-- S.env[i] is no NaN and its sign bit is clear, so it lies in [+0, +inf] (R57). -/
  env : ∀ i : Band, isNaN (s.env.get i) = false ∧ isNeg (s.env.get i) = false
  /-- S.peak[i] has bit 31 clear (R57). -/
  peak : ∀ i : Band, isNeg (s.peak.get i) = false
  /-- S.envOut[i] = S.env[i] * 5 in binary32 (R57). -/
  envOut : ∀ i : Band, s.envOut.get i = envOutOf (s.env.get i)

/-- Two states agree on every internal element but the sequencer and the error bits (R45 to R52). -/
structure SameInternal (s t : State) : Prop where
  fs : t.fs = s.fs
  configured : t.configured = s.configured
  coef : t.coef = s.coef
  hist : t.hist = s.hist
  qApplied : t.qApplied = s.qApplied
  env : t.env = s.env
  peak : t.peak = s.peak
  envOut : t.envOut = s.envOut
  out : t.out = s.out
  bandOffset : t.bandOffset = s.bandOffset

/-- All five coefficients are finite. -/
def FiniteCoef (c : Coef) : Prop :=
  isFinite c.b0 = true ∧ isFinite c.b1 = true ∧ isFinite c.b2 = true ∧
    isFinite c.a1 = true ∧ isFinite c.a2 = true

/-- All four history values are zeros, of either sign. -/
def ZeroHist (h : Hist) : Prop :=
  isZero h.x1 = true ∧ isZero h.x2 = true ∧ isZero h.y1 = true ∧ isZero h.y2 = true

/-- An access of the legal form: all four lanes and an aligned offset (R75, R78). -/
def LegalForm (p : Pins) : Prop := p.be = 0b1111#4 ∧ alignedOffset p.addr = true

/-- A write to STATUS of the legal form (R33). -/
def WritesStatus (p : Pins) : Prop :=
  p.req = true ∧ p.we = true ∧ LegalForm p ∧ p.addr = 0x008#9

/-- ERR_BUS applies to an access: it is malformed, names no register, or writes a read-only one
(R267). -/
def busFault (p : Pins) : Bool :=
  !(p.be == 0b1111#4) || !alignedOffset p.addr ||
    (match regAt p.addr with
    | none => true
    | some r => p.we && r.isReadOnly)

/-- The error a presented access raises in state `s`, by the priority of R268: ERR_BUS first, and for
a write to CMD ERR_ILLEGAL_CMD, nothing for a NOP, ERR_BUSY, then the command's own error. -/
def errorOf (p : Pins) (s : State) : Option ErrBit :=
  if busFault p then some .bus
  else if p.we && p.addr == 0x004#9 then
    if 3 < p.wdata.toNat then some .illegalCmd
    else if p.wdata = 0x00000000#32 then none
    else if s.seq ≠ .idle then some .busy
    else if p.wdata = 0x00000001#32 ∧ s.configured = false then some .notConfigured
    else if p.wdata = 0x00000003#32 ∧ fsOk s.regs.sampleRate = false then some .badFs
    else none
  else none

/-- `k` steps of the machine, stopping at the first fault or refusal: the host's `core.run` on this
machine's own types. -/
def runFor : Nat → State → Answer
  | 0, s => .next s
  | k + 1, s =>
    match step s with
    | .next t => runFor k t
    | .fault r => .fault r
    | .refused r => .refused r

/-- A rising edge with `rst_n` high. -/
def isRunEdge : HostEvent → Bool
  | .edge p => p.rstN
  | .stopClock => false

/-- The host's next `n` events are rising edges with `rst_n` high; past the end of its list the host
is idle, which is such an edge. -/
def RunsFor (n : Nat) (s : State) : Prop := ∀ e ∈ s.host.take n, isRunEdge e = true

/-- STABLE(COEF), the named property of R136: for every centre frequency, every usable sample rate and
every Q in [1, 15], the roots of z^2 + a1 z + a2 lie strictly inside the unit circle. -/
def StableCoef : Prop :=
  ∀ (i : Band) (fs q : Word), fsOk fs = true → inRange qMin qMax q →
    ∀ z : ℂ, z ^ 2 + (signedUnits (bandCoef i fs q).a1 / 2 ^ 149 : ℂ) * z
      + (signedUnits (bandCoef i fs q).a2 / 2 ^ 149 : ℂ) = 0 → ‖z‖ < 1

end Sys2Proof.Machine
end

