-- ==== Sys2Proof/Certificates/Slice0/Obligations.lean ====
section
/-!
DEFINITION. The statements about the core for the provers, each from the rules named in its docstring.
`complete op s` is the completion of a pending command on the snapshot L; that a run of the core
reaches it is `PendingCommandCompletes`.
-/

open Sys2Proof Sys2Proof.Machine

/-! ## Encodings and the register map -/

/-- R102, R103 and the opcode table: decoding the encoding of any well-formed instruction, with every
operand at every value, gives the instruction back. -/
def Obligations.DecodeOfEncode : Prop :=
  ∀ i : Instr, i.wf = true → decode (encode i) = .ok i

/-- The other direction: what decodes is well formed and is its own encoding, but that a read carries
no write data. -/
def Obligations.EncodeOfDecode : Prop :=
  ∀ (e : Encoded) (i : Instr), decode e = .ok i →
    i.wf = true ∧
      (encode i = e ∨ ∃ p w off, e = .transaction p w ∧ i = .rd off ∧ encode i = .transaction p 0)

/-- R103: the opcode map; a few bus words of the table beside it (rows RD and WR). -/
def Obligations.TableWordsDecode : Prop :=
  decodeTableWord 32 0x00000000 = some .nop ∧
  decodeTableWord 32 0x00000001 = some .step ∧
  decodeTableWord 32 0x00000002 = some .reset ∧
  decodeTableWord 32 0x00000003 = some .configure ∧
  decodeTableWord 32 0x00000100 = none ∧
  decodeTableWord 16 0b01111000001000 = some (.rd 0x008#9) ∧
  decodeTableWord 16 0b01111111111100 = some (.rd 0x1FC#9) ∧
  decodeTableWord 48 (0x00020400 * 65536 + 0b11111000010000) = some (.wr 0x010#9 0x00020400#32) ∧
  decodeTableWord 16 0b01011000001000 = none ∧
  decodeTableWord 16 0b11111000100010 = none

/-- R104, R263: every command word but 0 to 3 is illegal, and writing one to CMD sets
ERR_ILLEGAL_CMD and has no other effect, whether or not the core is busy. -/
def Obligations.IllegalCommandWords : Prop :=
  ∀ w : Word, 3 < w.toNat →
    decode (.command w) = .error (.illegalCommand w) ∧
    (∀ s : State, exec (.wr 0x004#9 w) s = .next { s with err := s.err ||| 0b00001#5 }) ∧
    ∀ (p : Pins) (s : State), p.req = true → p.we = true → p.be = 0b1111#4 → p.addr = 0x004#9 →
      p.wdata = w → access p s = .next { s with err := s.err ||| 0b00001#5 }

/-- R31: the register at an aligned offset is the one whose offset it is, and every register is
found at its own offset; the offsets are the table's numbers, and a read at each returns the field of
the register the table names there. Storing in a knob or an input changes the field of that name. (The
output registers' reads are `OutputRegisterViews`, those of ID, CMD and STATUS `IdIsConstant`,
`ReadReturnsRegister` and `StatusRegister`.) -/
def Obligations.RegisterMap : Prop :=
  (∀ r : Reg, alignedOffset r.offset = true ∧ regAt r.offset = some r) ∧
  (∀ (off : Offset) (r : Reg), alignedOffset off = true → regAt off = some r → r.offset = off) ∧
  (∀ r : Reg, r.offset.toNat =
    match r with
    | .id => 0x000
    | .cmd => 0x004
    | .status => 0x008
    | .sampleRate => 0x00C
    | .connect => 0x010
    | .knob .attack => 0x020
    | .knob .decay => 0x024
    | .knob .carq => 0x028
    | .knob .modq => 0x02C
    | .knob .bofs => 0x030
    | .knob .modGain => 0x034
    | .knob .carGain => 0x038
    | .knob .outGain => 0x03C
    | .bandGain i => 0x040 + 4 * i.val
    | .input .modIn => 0x080
    | .input .carIn => 0x084
    | .input .attackCv => 0x088
    | .input .decayCv => 0x08C
    | .input .carqCv => 0x090
    | .input .modqCv => 0x094
    | .input .bofsCv => 0x098
    | .insertIn i => 0x0C0 + 4 * i.val
    | .out => 0x100
    | .bandOffset => 0x104
    | .modqApplied => 0x108
    | .carqApplied => 0x10C
    | .fsApplied => 0x110
    | .envOut i => 0x140 + 4 * i.val
    | .peak i => 0x180 + 4 * i.val
    | .env i => 0x1C0 + 4 * i.val) ∧
  (∀ s : State,
    exec (.rd 0x00C#9) s = .next { s with rdata := some s.regs.sampleRate } ∧
    exec (.rd 0x010#9) s = .next { s with rdata := some s.regs.connect } ∧
    exec (.rd 0x020#9) s = .next { s with rdata := some s.regs.attackKnob } ∧
    exec (.rd 0x024#9) s = .next { s with rdata := some s.regs.decayKnob } ∧
    exec (.rd 0x028#9) s = .next { s with rdata := some s.regs.carqKnob } ∧
    exec (.rd 0x02C#9) s = .next { s with rdata := some s.regs.modqKnob } ∧
    exec (.rd 0x030#9) s = .next { s with rdata := some s.regs.bofsKnob } ∧
    exec (.rd 0x034#9) s = .next { s with rdata := some s.regs.modGainKnob } ∧
    exec (.rd 0x038#9) s = .next { s with rdata := some s.regs.carGainKnob } ∧
    exec (.rd 0x03C#9) s = .next { s with rdata := some s.regs.outGainKnob } ∧
    exec (.rd 0x080#9) s = .next { s with rdata := some s.regs.modIn } ∧
    exec (.rd 0x084#9) s = .next { s with rdata := some s.regs.carIn } ∧
    exec (.rd 0x088#9) s = .next { s with rdata := some s.regs.attackCv } ∧
    exec (.rd 0x08C#9) s = .next { s with rdata := some s.regs.decayCv } ∧
    exec (.rd 0x090#9) s = .next { s with rdata := some s.regs.carqCv } ∧
    exec (.rd 0x094#9) s = .next { s with rdata := some s.regs.modqCv } ∧
    exec (.rd 0x098#9) s = .next { s with rdata := some s.regs.bofsCv } ∧
    ∀ i : Band,
      exec (.rd (BitVec.ofNat 9 (0x040 + 4 * i.val))) s =
        .next { s with rdata := some (s.regs.bandGain.get i) } ∧
      exec (.rd (BitVec.ofNat 9 (0x0C0 + 4 * i.val))) s =
        .next { s with rdata := some (s.regs.insertIn.get i) }) ∧
  ∀ (r : Regs) (v : Word),
    r.setKnob .attack v = { r with attackKnob := v } ∧
    r.setKnob .decay v = { r with decayKnob := v } ∧
    r.setKnob .carq v = { r with carqKnob := v } ∧
    r.setKnob .modq v = { r with modqKnob := v } ∧
    r.setKnob .bofs v = { r with bofsKnob := v } ∧
    r.setKnob .modGain v = { r with modGainKnob := v } ∧
    r.setKnob .carGain v = { r with carGainKnob := v } ∧
    r.setKnob .outGain v = { r with outGainKnob := v } ∧
    r.setInput .modIn v = { r with modIn := v } ∧
    r.setInput .carIn v = { r with carIn := v } ∧
    r.setInput .attackCv v = { r with attackCv := v } ∧
    r.setInput .decayCv v = { r with decayCv := v } ∧
    r.setInput .carqCv v = { r with carqCv := v } ∧
    r.setInput .modqCv v = { r with modqCv := v } ∧
    r.setInput .bofsCv v = { r with bofsCv := v }

/-- R77: the unmapped offsets, and what a read and a write of one do. -/
def Obligations.UnmappedOffsets : Prop :=
  (∀ off : Offset, alignedOffset off = true →
    (regAt off = none ↔ (off.toNat = 0x014 ∨ off.toNat = 0x018 ∨ off.toNat = 0x01C ∨
      (0x09C ≤ off.toNat ∧ off.toNat ≤ 0x0BC) ∨ (0x114 ≤ off.toNat ∧ off.toNat ≤ 0x13C)))) ∧
  ∀ (off : Offset) (w : Word) (s : State), alignedOffset off = true → regAt off = none →
    exec (.rd off) s =
      .next { s with rdata := some 0x00000000#32, err := s.err ||| 0b10000#5 } ∧
    exec (.wr off w) s = .next { s with err := s.err ||| 0b10000#5 }

/-! ## Reads -/

/-- R72: a read of a mapped, aligned offset returns the register's value and changes nothing else;
CMD reads 0. RD completes here. -/
def Obligations.ReadReturnsRegister : Prop :=
  ∀ (off : Offset) (r : Reg) (s : State), alignedOffset off = true → regAt off = some r →
    exec (.rd off) s = .next { s with rdata := some (regValue s r) } ∧
    (r = .cmd → exec (.rd off) s = .next { s with rdata := some 0x00000000#32 })

/-- R40: the output registers are views of the internal state. -/
def Obligations.OutputRegisterViews : Prop :=
  ∀ s : State,
    exec (.rd 0x100#9) s = .next { s with rdata := some s.out } ∧
    exec (.rd 0x104#9) s = .next { s with rdata := some s.bandOffset } ∧
    exec (.rd 0x108#9) s = .next { s with rdata := some s.qApplied.mod } ∧
    exec (.rd 0x10C#9) s = .next { s with rdata := some s.qApplied.car } ∧
    exec (.rd 0x110#9) s = .next { s with rdata := some s.fs } ∧
    ∀ i : Band,
      exec (.rd (BitVec.ofNat 9 (0x140 + 4 * i.val))) s =
        .next { s with rdata := some (s.envOut.get i) } ∧
      exec (.rd (BitVec.ofNat 9 (0x180 + 4 * i.val))) s =
        .next { s with rdata := some (s.peak.get i) } ∧
      exec (.rd (BitVec.ofNat 9 (0x1C0 + 4 * i.val))) s =
        .next { s with rdata := some (s.env.get i) }

/-- R32: ID reads the constant 0x00012210 at all times, and a write to it is an access error. -/
def Obligations.IdIsConstant : Prop :=
  ∀ (s : State) (w : Word),
    exec (.rd 0x000#9) s = .next { s with rdata := some 0x00012210#32 } ∧
    exec (.wr 0x000#9 w) s = .next { s with err := s.err ||| 0b10000#5 }

/-- R33: the fields of STATUS as read, and a write to it, which clears the error bits named by
w[12:8], changes nothing else, and is accepted whatever the sequencer does. It powers on at 0. -/
def Obligations.StatusRegister : Prop :=
  ∀ (s : State) (w : Word),
    (∃ v : Word, exec (.rd 0x008#9) s = .next { s with rdata := some v } ∧
      (v.getLsbD 0 = true ↔ s.seq ≠ .idle) ∧
      v.getLsbD 1 = s.configured ∧
      (∀ n, 2 ≤ n → n ≤ 7 → v.getLsbD n = false) ∧
      (∀ k, k < 5 → v.getLsbD (8 + k) = s.err.getLsbD k) ∧
      ∀ n, 13 ≤ n → v.getLsbD n = false) ∧
    (∃ e : BitVec 5, exec (.wr 0x008#9 w) s = .next { s with err := e } ∧
      ∀ k, k < 5 → e.getLsbD k = (s.err.getLsbD k && !w.getLsbD (8 + k))) ∧
    regValue State.reset .status = 0x00000000#32

/-! ## Writes -/

/-- R42: a write to a knob register or a BANDGAIN register completes, without an error, and stores the
value clamped to its range; the stored value is in the range, a value in the range is stored as it
is, a NaN stores the lower bound, -0 stores +0 where the lower bound is 0 and -0 in BOFS_KNOB; a read
returns the stored value. The bounds are the ones the rule gives. -/
def Obligations.KnobWritesAreLegalised : Prop :=
  (∀ k : Knob, (k.lo, k.hi) =
    (match k with
    | .attack => (0x00000000#32, 0x3E800000#32)
    | .decay => (0x00000000#32, 0x3E800000#32)
    | .carq => (0x3F800000#32, 0x41700000#32)
    | .modq => (0x3F800000#32, 0x41700000#32)
    | .bofs => (0xC1780000#32, 0x41780000#32)
    | .modGain => (0x3F800000#32, 0x41200000#32)
    | .carGain => (0x3F800000#32, 0x41200000#32)
    | .outGain => (0x3F800000#32, 0x41200000#32))) ∧
  (∀ (k : Knob) (s : State), exec (.rd (Reg.knob k).offset) s =
    .next { s with rdata := some (s.regs.knob k) }) ∧
  (∀ (k j : Knob) (v : Word) (s : State),
    (s.regs.setKnob k v).knob j = if j = k then v else s.regs.knob j) ∧
  (∀ (i : Band) (s : State), exec (.rd (Reg.bandGain i).offset) s =
    .next { s with rdata := some (s.regs.bandGain.get i) }) ∧
  (∀ (k : Knob) (v : Word) (s : State),
    exec (.wr (Reg.knob k).offset v) s =
      .next { s with regs := s.regs.setKnob k (clamp32 v k.lo k.hi) } ∧
    inRange k.lo k.hi (clamp32 v k.lo k.hi) ∧
    (inRange k.lo k.hi v → clamp32 v k.lo k.hi = v) ∧
    (isNaN v = true → clamp32 v k.lo k.hi = k.lo)) ∧
  (∀ (i : Band) (v : Word) (s : State),
    exec (.wr (Reg.bandGain i).offset v) s =
      .next { s with regs := { s.regs with
        bandGain := s.regs.bandGain.set i (clamp32 v 0x00000000#32 0x40000000#32) } } ∧
    inRange 0x00000000#32 0x40000000#32 (clamp32 v 0x00000000#32 0x40000000#32) ∧
    (inRange 0x00000000#32 0x40000000#32 v → clamp32 v 0x00000000#32 0x40000000#32 = v) ∧
    (isNaN v = true → clamp32 v 0x00000000#32 0x40000000#32 = 0x00000000#32)) ∧
  clamp32 0x80000000#32 Knob.attack.lo Knob.attack.hi = 0x00000000#32 ∧
  clamp32 0x80000000#32 Knob.decay.lo Knob.decay.hi = 0x00000000#32 ∧
  clamp32 0x80000000#32 0x00000000#32 0x40000000#32 = 0x00000000#32 ∧
  clamp32 0x80000000#32 Knob.bofs.lo Knob.bofs.hi = 0x80000000#32

/-- R43: an input register, an insert and SAMPLE_RATE store the 32 written bits, and CONNECT stores
bits 22:0. WR completes here. -/
def Obligations.InputWritesStoreRawBits : Prop :=
  (∀ (j : Input) (v : Word) (s : State),
    exec (.wr (Reg.input j).offset v) s = .next { s with regs := s.regs.setInput j v }) ∧
  (∀ (i : Band) (v : Word) (s : State),
    exec (.wr (Reg.insertIn i).offset v) s =
      .next { s with regs := { s.regs with insertIn := s.regs.insertIn.set i v } }) ∧
  (∀ (v : Word) (s : State),
    exec (.wr 0x00C#9 v) s = .next { s with regs := { s.regs with sampleRate := v } }) ∧
  ∀ (v : Word) (s : State), ∃ c : Word,
    exec (.wr 0x010#9 v) s = .next { s with regs := { s.regs with connect := c } } ∧
    ∀ n, c.getLsbD n = (decide (n < 23) && v.getLsbD n)

/-- R76: a write to a read-only register stores nothing and sets ERR_BUS, and a read of CMD returns
0 and is no error. -/
def Obligations.ReadOnlyWritesAreErrors : Prop :=
  (∀ (r : Reg) (w : Word) (s : State),
    (r = .id ∨ r = .out ∨ r = .bandOffset ∨ r = .modqApplied ∨ r = .carqApplied ∨ r = .fsApplied ∨
      ∃ i, r = .envOut i ∨ r = .peak i ∨ r = .env i) →
    exec (.wr r.offset w) s = .next { s with err := s.err ||| 0b10000#5 }) ∧
  ∀ s : State, exec (.rd 0x004#9) s = .next { s with rdata := some 0x00000000#32 }

/-- R78: an access with byte enables other than 0b1111 reads 0 or stores nothing, and sets ERR_BUS. -/
def Obligations.PartialAccessIsError : Prop :=
  ∀ (p : Pins) (s : State), p.req = true → p.be ≠ 0b1111#4 →
    access p s = .next (if p.we then { s with err := s.err ||| 0b10000#5 }
      else { s with rdata := some 0x00000000#32, err := s.err ||| 0b10000#5 })

/-- R75: so does an access whose offset is no multiple of four. -/
def Obligations.MisalignedAccessIsError : Prop :=
  (∀ (p : Pins) (s : State), p.req = true → alignedOffset p.addr = false →
    access p s = .next (if p.we then { s with err := s.err ||| 0b10000#5 }
      else { s with rdata := some 0x00000000#32, err := s.err ||| 0b10000#5 })) ∧
  ∀ (off : Offset) (w : Word) (s : State), alignedOffset off = false →
    exec (.rd off) s =
      .next { s with rdata := some 0x00000000#32, err := s.err ||| 0b10000#5 } ∧
    exec (.wr off w) s = .next { s with err := s.err ||| 0b10000#5 }

/-- R73, R230: a legal command word written to CMD runs its command. -/
def Obligations.CmdWriteRunsCommand : Prop :=
  ∀ s : State,
    exec (.wr 0x004#9 0x00000000#32) s = exec .nop s ∧
    exec (.wr 0x004#9 0x00000001#32) s = exec .step s ∧
    exec (.wr 0x004#9 0x00000002#32) s = exec .reset s ∧
    exec (.wr 0x004#9 0x00000003#32) s = exec .configure s ∧
    ∀ i : Instr, (i = .nop ∨ i = .step ∨ i = .reset ∨ i = .configure) →
      access (pinsOf (encode i)) s = exec i s

/-- Frame of RD and WR (R72, R73, R80). A read changes only the read-data port and, where it is an
error, the error bits. A write to any offset but CMD's leaves every internal element, the snapshot,
the sequencer and the read-data port as they were, and every register but the one at its offset (and
STATUS, whose error bits an erroneous write sets) reads as before. -/
def Obligations.TransactionFrame : Prop :=
  (∀ (off : Offset) (s t : State), exec (.rd off) s = .next t →
    ∃ (v : Word) (e : BitVec 5), t = { s with rdata := some v, err := e } ∧
      (alignedOffset off = true → regAt off ≠ none → e = s.err)) ∧
  ∀ (off : Offset) (w : Word) (s t : State), off ≠ 0x004#9 → exec (.wr off w) s = .next t →
    (∃ (r : Regs) (e : BitVec 5), t = { s with regs := r, err := e }) ∧
    ∀ r : Reg, r.offset ≠ off → r ≠ .status → regValue t r = regValue s r

/-- R82: a read presented after a write to a parameter or input register returns what that write
left, which is the legalised value. -/
def Obligations.ReadAfterWrite : Prop :=
  ∀ (r : Reg) (w : Word) (s : State), r.isStored = true →
    ∃ (t : State) (v : Word), exec (.wr r.offset w) s = .next t ∧
      exec (.rd r.offset) t = .next { t with rdata := some v } ∧
      (∀ k, r = .knob k → v = clamp32 w k.lo k.hi) ∧
      (∀ i, r = .bandGain i → v = clamp32 w 0x00000000#32 0x40000000#32) ∧
      (r = .connect → v = w &&& 0x007FFFFF#32) ∧
      (r = .sampleRate → v = w) ∧
      (∀ j, r = .input j → v = w) ∧
      ∀ i, r = .insertIn i → v = w

/-! ## Commands in the accepting cycle -/

/-- R231: NOP, the word 0x00000000 and not 0x00000100, changes nothing, busy or not, and as the access of
a cycle it leaves what an idle cycle leaves. That third clause gives its cycles by the first event of the
host's list, the model's own field (DESIGN CHOICE, log entry 2). -/
def Obligations.NopHasNoEffect : Prop :=
  decode (.command 0x00000000#32) = .ok .nop ∧
  decode (.command 0x00000100#32) = .error (.illegalCommand 0x00000100#32) ∧
  ∀ s : State, exec .nop s = .next s ∧
    ∀ rest : List HostEvent,
      step { s with host := .edge (pinsOf (encode .nop)) :: rest } =
        step { s with host := .edge idlePins :: rest }

/-- R230, R56: on an idle, configured core STEP is accepted: L takes every register and the sequencer
becomes BUSY(STEP, STEP_LATENCY); nothing else changes. -/
def Obligations.StepIsAccepted : Prop :=
  ∀ s : State, s.seq = .idle → s.configured = true →
    exec .step s = .next { s with snap := s.regs, seq := .busy .step (latency .step) }

/-- R264, R265: STEP while busy raises ERR_BUSY, and on an idle core that is not configured
ERR_NOT_CONFIGURED, with no other effect. -/
def Obligations.StepIsRefused : Prop :=
  ∀ s : State,
    (s.seq ≠ .idle → exec .step s = .next { s with err := s.err ||| 0b00010#5 }) ∧
    (s.seq = .idle → s.configured = false →
      exec .step s = .next { s with err := s.err ||| 0b01000#5 })

/-- R234, R59: on an idle core RESET clears the band offset at once and changes nothing else; while
busy it raises ERR_BUSY (R264) with no other effect. -/
def Obligations.ResetClearsBandOffset : Prop :=
  ∀ s : State,
    (s.seq = .idle → exec .reset s = .next { s with bandOffset := 0x00000000#32 }) ∧
    (s.seq ≠ .idle → exec .reset s = .next { s with err := s.err ||| 0b00010#5 })

/-- R230, R56, R235: on an idle core whose SAMPLE_RATE is finite and above 12800.0, CONFIGURE is
accepted. -/
def Obligations.ConfigureIsAccepted : Prop :=
  ∀ s : State, s.seq = .idle → 0x46480000 < s.regs.sampleRate.toNat →
    s.regs.sampleRate.toNat < 0x7F800000 →
    exec .configure s =
      .next { s with snap := s.regs, seq := .busy .configure (latency .configure) }

/-- R264, R266: CONFIGURE while busy raises ERR_BUSY, and on an idle core with an unusable
SAMPLE_RATE ERR_BAD_FS, with no other effect. -/
def Obligations.ConfigureIsRefused : Prop :=
  ∀ s : State,
    (s.seq ≠ .idle → exec .configure s = .next { s with err := s.err ||| 0b00010#5 }) ∧
    (s.seq = .idle →
      ¬(0x46480000 < s.regs.sampleRate.toNat ∧ s.regs.sampleRate.toNat < 0x7F800000) →
      exec .configure s = .next { s with err := s.err ||| 0b00100#5 })

/-- R235: FS_OK holds exactly for the finite values above 12800.0; a NaN, an infinity, a value up to
12800.0, a zero and every negative value fail. -/
def Obligations.FsOkMeansAbove12800 : Prop :=
  ∀ fs : Word, fsOk fs = true ↔ (0x46480000 < fs.toNat ∧ fs.toNat < 0x7F800000)

/-- Frame of the commands (R230, R262): what each may change when it answers a next state. -/
def Obligations.CommandFrame : Prop :=
  ∀ s t : State,
    (exec .nop s = .next t → t = s) ∧
    (exec .step s = .next t ∨ exec .configure s = .next t →
      (∃ (l : Regs) (q : Seq), t = { s with snap := l, seq := q }) ∨
        ∃ e : BitVec 5, t = { s with err := e }) ∧
    (exec .reset s = .next t →
      t = { s with bandOffset := 0x00000000#32 } ∨ ∃ e : BitVec 5, t = { s with err := e })

/-! ## Errors -/

/-- R262 to R268: a presented access raises the error that `errorOf` gives by the priority of R268,
setting its bit and changing nothing else but that a read returns 0; where it gives none, no error
bit is set. -/
def Obligations.ErrorPriorityAndPrecision : Prop :=
  ∀ (p : Pins) (s t : State), p.req = true → access p s = .next t →
    (∀ e, errorOf p s = some e →
      t = { s with
        err := s.err ||| (1#5 <<< (e.code - 8))
        rdata := if p.we then s.rdata else some 0x00000000#32 }) ∧
    (errorOf p s = none → ∀ k, t.err.getLsbD k = true → s.err.getLsbD k = true)

/-- After R34: in a cycle without power-on reset an error bit that was set stays set, but for a write to
STATUS with that bit of the data set, and a bit that was clear is set only by the error that this
cycle's access raises, one of the five causes (`errorOf`). Which error that is, is judged on the state
before the edge also in the cycle in which a command completes, where a command written is refused
with ERR_BUSY: the model's reading (DEDUCED, log entry 3). -/
def Obligations.ErrorBitsAreSticky : Prop :=
  (∀ (s t : State) (p : Pins) (k : Nat), nextEvent s = .edge p → p.rstN = true →
    step s = .next t → k < 5 → s.err.getLsbD k = true → t.err.getLsbD k = false →
    WritesStatus p ∧ p.wdata.getLsbD (8 + k) = true) ∧
  ∀ (s t : State) (k : Nat), step s = .next t →
    s.err.getLsbD k = false → t.err.getLsbD k = true →
    ∃ (p : Pins) (e : ErrBit), nextEvent s = .edge p ∧ p.rstN = true ∧ p.req = true ∧
      errorOf p s = some e ∧ e.code = 8 + k

/-! ## Cycles, completion and reset -/

/-- R71, R230, R262, R279, R305: a cycle with `rst_n` high is its access on the state of the cycle, with
the read-data port emptied, and then, where a command was pending, one count of the sequencer; this
holds of every access (first clause). A decoded access is exec of its instruction; a cycle without an
access does nothing, so that an idle core holds its state; and a rejected access sets its error bit
and does nothing else, but that a read returns 0. That access and count both start from the state
before the edge is the model's reading (log entry 3), the emptied read-data port and the host's list
are its choices (log entries 7 and 2). -/
def Obligations.StepRunsDecodedInstruction : Prop :=
  ∀ (s : State) (p : Pins), nextEvent s = .edge p → p.rstN = true →
    (∃ t, access p { s with host := s.host.tail, rdata := none } = .next t ∧
      step s = .next (if s.seq = .idle then t else tick t)) ∧
    (∀ (t : State) (i : Instr), p.req = true → decode (fetchForm p) = .ok i →
      exec i { s with host := s.host.tail, rdata := none } = .next t →
      step s = .next (if s.seq = .idle then t else tick t)) ∧
    (p.req = false → s.seq = .idle →
      step s = .next { s with host := s.host.tail, rdata := none }) ∧
    (p.req = false → s.seq ≠ .idle →
      step s = .next (tick { s with host := s.host.tail, rdata := none })) ∧
    ∀ r : Reject, p.req = true → decode (fetchForm p) = .error r →
      ∃ t, t = (match r with
        | .illegalCommand _ =>
          { s with host := s.host.tail, rdata := none, err := s.err ||| 0b00001#5 }
        | _ =>
          { s with
            host := s.host.tail
            rdata := if p.we then none else some 0x00000000#32
            err := s.err ||| 0b10000#5 }) ∧
        step s = .next (if s.seq = .idle then t else tick t)

/-- R260: the core never stops: every rising edge gives a next state, whatever the access. The host's
list, of which the edge takes one entry, is the model's own field (DESIGN CHOICE, log entry 2). -/
def Obligations.EveryEdgeHasANextState : Prop :=
  ∀ (s : State) (p : Pins), nextEvent s = .edge p →
    ∃ t, step s = .next t ∧ t.host = s.host.tail

/-- R290, R291: an edge with `rst_n` low gives every element its power-on value, whatever was
pending, and an access presented with it has no effect but that a read returns 0. That `rst_n` acts
at an edge is the model's reading (DEDUCED, log entry 6); the empty read-data port and the host's
list are its choices (DESIGN CHOICE, log entries 7 and 2). -/
def Obligations.PowerOnReset : Prop :=
  ∀ (s : State) (p : Pins), nextEvent s = .edge p → p.rstN = false →
    step s = .next { State.reset with
      host := s.host.tail
      rdata := if p.req && !p.we then some 0x00000000#32 else none }

/-- R58, R293: the power-on values, in the terms a host reads them. -/
def Obligations.PowerOnValues : Prop :=
  State.reset.snap = State.reset.regs ∧ State.reset.seq = .idle ∧ State.reset.err = 0 ∧
  State.reset.configured = false ∧ State.reset.fs = 0 ∧ State.reset.out = 0 ∧
  State.reset.bandOffset = 0 ∧ statusWord State.reset = 0x00000000#32 ∧
  (∀ b : Bank, State.reset.qApplied.get b = 0 ∧ ∀ (i : Band) (st : Stage),
    ((State.reset.coef.get b).get i).get st = ⟨0, 0, 0, 0, 0⟩ ∧
    ((State.reset.hist.get b).get i).get st = ⟨0, 0, 0, 0⟩) ∧
  (∀ i : Band, State.reset.env.get i = 0 ∧ State.reset.peak.get i = 0 ∧
    State.reset.envOut.get i = 0 ∧ State.reset.regs.bandGain.get i = 0x3F800000#32 ∧
    State.reset.regs.insertIn.get i = 0) ∧
  (∀ k : Knob, State.reset.regs.knob k =
    if k = .attack ∨ k = .decay ∨ k = .bofs then 0x00000000#32 else 0x3F800000#32) ∧
  (∀ j : Input, State.reset.regs.input j = 0) ∧
  State.reset.regs.sampleRate = 0 ∧ State.reset.regs.connect = 0 ∧
  regValue State.reset .id = 0x00012210#32 ∧ regValue State.reset .cmd = 0 ∧
  exec .configure State.reset = .next { State.reset with err := 0b00100#5 }

/-- R56, R271, R298: while a command is pending and not in its last cycle, whatever the host does
with `rst_n` high the cycle only counts down: every internal element and the snapshot stay. -/
def Obligations.PendingCommandIsUndisturbed : Prop :=
  ∀ (s : State) (p : Pins) (op : BusyOp) (n : Nat), nextEvent s = .edge p → p.rstN = true →
    s.seq = .busy op n → 2 ≤ n →
    ∃ t, step s = .next t ∧ t.seq = .busy op (n - 1) ∧ t.snap = s.snap ∧ SameInternal s t

/-- R233, R236, R305: a pending command completes exactly when its count runs out, whatever the host
does meanwhile with `rst_n` high; until then no internal element changes, and then all the writes
of the command take effect together and the sequencer is IDLE. That a RESET, STEP or CONFIGURE written
in the completing cycle changes nothing of this, because it meets the state before the edge and is
refused with ERR_BUSY, is the model's reading (DEDUCED, log entry 3); the edges come from the host's list,
the model's own field (DESIGN CHOICE, log entry 2). -/
def Obligations.PendingCommandCompletes : Prop :=
  ∀ (n : Nat) (s : State) (op : BusyOp), 1 ≤ n → s.seq = .busy op n → RunsFor n s →
    (∀ k, k < n → ∃ t, runFor k s = .next t ∧ t.seq = .busy op (n - k) ∧ t.snap = s.snap ∧
      SameInternal s t) ∧
    ∃ t, runFor n s = .next t ∧ t.seq = .idle ∧ t.snap = s.snap ∧ SameInternal (complete op s) t

/-- R230, R305, R232, R236: from an idle core the command's word written to CMD and then an idle host
for its latency leave exactly the command's effect on the registers of the accepting cycle. The empty
read-data port and the host's used-up list at the end are the model's choices (DESIGN CHOICE, log
entries 7 and 2). -/
def Obligations.CommandRunsToCompletion : Prop :=
  ∀ s : State, s.seq = .idle →
    (s.configured = true →
      runFor (latency .step + 1) { s with host := [.edge (pinsOf (encode .step))] } =
        .next { stepCommit { s with snap := s.regs } with seq := .idle, rdata := none, host := [] }) ∧
    (fsOk s.regs.sampleRate = true →
      runFor (latency .configure + 1) { s with host := [.edge (pinsOf (encode .configure))] } =
        .next { configureCommit { s with snap := s.regs } with
          seq := .idle, rdata := none, host := [] })

/-! ## What a CONFIGURE leaves -/

/-- R236, R134: the applied rate, both applied Q values without the hysteresis test, all 64
coefficient records, CONFIGURED, and nothing else but the sequencer. -/
def Obligations.ConfigureEffect : Prop :=
  ∀ s : State,
    (complete .configure s).fs = s.snap.sampleRate ∧
    (complete .configure s).configured = true ∧
    (∀ b : Bank, (complete .configure s).qApplied.get b = qTarget b s.snap ∧
      ∀ (i : Band) (st : Stage), (((complete .configure s).coef.get b).get i).get st =
        coefFn (f0 i) s.snap.sampleRate (qTarget b s.snap) gainDb) ∧
    complete .configure s =
      { s with
        fs := s.snap.sampleRate
        configured := true
        qApplied := (complete .configure s).qApplied
        coef := (complete .configure s).coef
        seq := .idle }

/-! ## What a STEP computes -/

/-- R232, R236, R158: the lane-parallel computations equal the pseudocode's loops, micro-operation by
micro-operation in band order. -/
def Obligations.LoopsGiveTheSameState : Prop :=
  ∀ s : State, stepCommit s = seqStepCommit s ∧ configureCommit s = seqConfigureCommit s

/-- R192, R193: every STEP sets the band offset to the wrapped raw offset, which lies in [-15, 15],
whatever it was before. -/
def Obligations.BandOffsetWraps : Prop :=
  ∀ s : State,
    (complete .step s).bandOffset.toInt =
      (if bofsRaw s.snap ≤ -16 then 15 else if 16 ≤ bofsRaw s.snap then -15 else bofsRaw s.snap) ∧
    -15 ≤ (complete .step s).bandOffset.toInt ∧ (complete .step s).bandOffset.toInt ≤ 15

/-- R190: the knob alone gives its truncation, which lies in [-15, 15] for a legal knob; a connected
NaN control voltage gives 0, a connected infinity saturates, and a connected finite one is added to
the truncated knob and the sum truncated. -/
def Obligations.BandOffsetFromKnobAndCv : Prop :=
  ∀ l : Regs, inRange 0xC1780000#32 0x41780000#32 l.bofsKnob →
    (-15 ≤ truncSat l.bofsKnob ∧ truncSat l.bofsKnob ≤ 15) ∧
    (l.connect.getLsbD 22 = false → bofsRaw l = truncSat l.bofsKnob) ∧
    (l.connect.getLsbD 22 = true →
      bofsRaw l = truncSat (add32 (f32OfInt (truncSat l.bofsKnob)) l.bofsCv) ∧
      (isNaN l.bofsCv = true → bofsRaw l = 0) ∧
      (l.bofsCv = 0x7F800000#32 → bofsRaw l = 2147483647) ∧
      (l.bofsCv = 0xFF800000#32 → bofsRaw l = -2147483648))

/-- R194: the rotated index is the residue of i + S.bandOffset, and for a fixed offset the rotation is
a bijection of the bands. -/
def Obligations.RotationIsABijection : Prop :=
  ∀ s : State, Function.Bijective (rot s) ∧
    ∀ i : Band, ((rot s i).val : Int) = ((i.val : Int) + s.bandOffset.toInt) % 16

/-- R195, R196, R198: a connected insert at the rotated index routes its voltage over 5 whatever the
envelopes hold, a disconnected one the envelope of that band whatever its register holds; with
offset 3 and no insert connected, carrier band i takes envelope (i + 3) mod 16. -/
def Obligations.RouteInsertOrEnvelope : Prop :=
  ∀ (s : State) (i : Band),
    (s.snap.connect.getLsbD (rot s i).val = true →
      route s i = div32 (s.snap.insertIn.get (rot s i)) 0x40A00000#32) ∧
    (s.snap.connect.getLsbD (rot s i).val = false → route s i = s.env.get (rot s i)) ∧
    (s.bandOffset.toInt = 3 → (∀ j : Band, s.snap.connect.getLsbD j.val = false) →
      route s i = s.env.get (i + 3))

/-- R196: the register value of a disconnected insert has no influence on what a STEP computes. -/
def Obligations.DisconnectedInsertIsIgnored : Prop :=
  ∀ (s : State) (i : Band) (v : Word), s.snap.connect.getLsbD i.val = false →
    complete .step { s with snap := { s.snap with insertIn := s.snap.insertIn.set i v } } =
      { complete .step s with snap := { s.snap with insertIn := s.snap.insertIn.set i v } }

/-- R150, R151: the Q target of each bank is the clamped sum of its knob and of its control voltage,
mapped and clamped where it is connected and +0 where it is not; it is no NaN and lies in [1, 15] for
every snapshot, and it is the knob itself where the knob is legal and its control voltage
disconnected. -/
def Obligations.QTargetIsClamped : Prop :=
  le32 Config.params.carqCvLo Config.params.carqCvHi = true ∧
  le32 Config.params.modqCvLo Config.params.modqCvHi = true ∧
  ∀ l : Regs,
    qTarget .car l = clamp32 (add32 l.carqKnob (if l.connect.getLsbD 20 then
      clamp32 (Config.params.cvmapCarq l.carqCv) Config.params.carqCvLo Config.params.carqCvHi
      else 0x00000000#32)) 0x3F800000#32 0x41700000#32 ∧
    qTarget .mod l = clamp32 (add32 l.modqKnob (if l.connect.getLsbD 21 then
      clamp32 (Config.params.cvmapModq l.modqCv) Config.params.modqCvLo Config.params.modqCvHi
      else 0x00000000#32)) 0x3F800000#32 0x41700000#32 ∧
    (∀ b : Bank, inRange 0x3F800000#32 0x41700000#32 (qTarget b l)) ∧
    (inRange 0x3F800000#32 0x41700000#32 l.carqKnob → l.connect.getLsbD 20 = false →
      qTarget .car l = l.carqKnob) ∧
    (inRange 0x3F800000#32 0x41700000#32 l.modqKnob → l.connect.getLsbD 21 = false →
      qTarget .mod l = l.modqKnob)

/-- R152, R153, R154: in a STEP each bank on its own either moves by at least the threshold from its
applied Q, and then all its 32 biquads get the coefficients of the target, or keeps its applied Q
and all its coefficients. -/
def Obligations.QUpdatesWithHysteresis : Prop :=
  ∀ (s : State) (b : Bank),
    (ge32 (abs32 (sub32 (qTarget b s.snap) (s.qApplied.get b))) 0x3DCCCCCD#32 = true →
      (complete .step s).qApplied.get b = qTarget b s.snap ∧
      ∀ (i : Band) (st : Stage), (((complete .step s).coef.get b).get i).get st =
        coefFn (f0 i) s.fs (qTarget b s.snap) gainDb) ∧
    (ge32 (abs32 (sub32 (qTarget b s.snap) (s.qApplied.get b))) 0x3DCCCCCD#32 = false →
      (complete .step s).qApplied.get b = s.qApplied.get b ∧
      (complete .step s).coef.get b = s.coef.get b)

/-- R133, R155, R156: in a STEP every biquad of both banks processes exactly one sample by the
difference equation with this STEP's coefficients: stage 0 the bank's scaled input (R210), stage 1
the output of stage 0, and its history shifts. -/
def Obligations.BiquadsProcessOneSample : Prop :=
  ∀ (s : State) (i : Band) (b : Bank),
    ∃ (x u y : Word) (c0 c1 : Coef) (h0 h1 : Hist),
      x = mul32 (div32 (if s.snap.connect.getLsbD (if b = .mod then 16 else 17)
            then (if b = .mod then s.snap.modIn else s.snap.carIn) else 0x00000000#32) 0x40A00000#32)
          (if b = .mod then s.snap.modGainKnob else s.snap.carGainKnob) ∧
      c0 = (((complete .step s).coef.get b).get i).s0 ∧
      c1 = (((complete .step s).coef.get b).get i).s1 ∧
      h0 = ((s.hist.get b).get i).s0 ∧ h1 = ((s.hist.get b).get i).s1 ∧
      u = sub32 (sub32 (add32 (add32 (mul32 c0.b0 x) (mul32 c0.b1 h0.x1)) (mul32 c0.b2 h0.x2))
        (mul32 c0.a1 h0.y1)) (mul32 c0.a2 h0.y2) ∧
      y = sub32 (sub32 (add32 (add32 (mul32 c1.b0 u) (mul32 c1.b1 h1.x1)) (mul32 c1.b2 h1.x2))
        (mul32 c1.a1 h1.y1)) (mul32 c1.a2 h1.y2) ∧
      (((complete .step s).hist.get b).get i).s0 = ⟨x, h0.x1, u, h0.y1⟩ ∧
      (((complete .step s).hist.get b).get i).s1 = ⟨u, h1.x1, y, h1.y1⟩

/-- R133 (e), R135, R154: no biquad reads another's history: the new history of one band of one bank
is the same in two states that agree on that band's histories and on what all bands share. -/
def Obligations.BandsAreIndependent : Prop :=
  ∀ (s t : State) (b : Bank) (i : Band), t.snap = s.snap → t.fs = s.fs →
    t.qApplied.get b = s.qApplied.get b → (t.coef.get b).get i = (s.coef.get b).get i →
    (t.hist.get b).get i = (s.hist.get b).get i →
    ((complete .step t).hist.get b).get i = ((complete .step s).hist.get b).get i

/-- R173 to R177, R50, R211: in a STEP the peak of every band is the absolute value of its modulator
cascade's output, the envelope moves by the attack, decay or hold branch with the one pair of rates
of the STEP, each from its own knob and control voltage (R171, R172), and the envelope output is the
new envelope times 5. A NaN peak keeps the envelope. -/
def Obligations.EnvelopesFollowThePeaks : Prop :=
  ∀ (s : State) (i : Band),
    ∃ (p c e rAtt rDec : Word),
      p = abs32 ((((complete .step s).hist.get .mod).get i).s1).y1 ∧ c = s.env.get i ∧
      rAtt = mul32 0x43FA0000#32 (Config.params.slewPow 0x360637BD#32 (add32 s.snap.attackKnob
        (if s.snap.connect.getLsbD 18 then
          clamp32 (Config.params.cvmapAttack s.snap.attackCv) 0xBE800000#32 0x3E800000#32
          else 0x00000000#32))) ∧
      rDec = mul32 0x43FA0000#32 (Config.params.slewPow 0x360637BD#32 (add32 s.snap.decayKnob
        (if s.snap.connect.getLsbD 19 then
          clamp32 (Config.params.cvmapDecay s.snap.decayCv) 0xBE800000#32 0x3E800000#32
          else 0x00000000#32))) ∧
      (complete .step s).peak.get i = p ∧
      (complete .step s).env.get i = e ∧
      (complete .step s).envOut.get i = mul32 e 0x40A00000#32 ∧
      (gt32 p c = true → e = minnum (add32 c
        (div32 (mul32 (mul32 rAtt 0x3DCCCCCD#32) (sub32 p c)) s.fs)) p) ∧
      (lt32 p c = true → e = maxnum (sub32 c
        (div32 (mul32 (mul32 rDec 0x3DCCCCCD#32) (sub32 c p)) s.fs)) p) ∧
      (gt32 p c = false → lt32 p c = false → e = c) ∧
      (isNaN p = true → e = c)

/-- R178: with a legal snapshot, a usable applied rate and an envelope of R57 (all of which the
invariant `CoreInv` gives for a pending STEP), the new envelope of a band lies between the old one
and the peak wherever the peak is no NaN. -/
def Obligations.EnvelopesDoNotOvershoot : Prop :=
  ∀ (s : State) (i : Band), RegsLegal s.snap → fsOk s.fs = true →
    isNaN (s.env.get i) = false → isNeg (s.env.get i) = false →
    isNaN ((complete .step s).peak.get i) = false →
    (le32 (s.env.get i) ((complete .step s).peak.get i) = true →
      le32 (s.env.get i) ((complete .step s).env.get i) = true ∧
      le32 ((complete .step s).env.get i) ((complete .step s).peak.get i) = true) ∧
    (ge32 (s.env.get i) ((complete .step s).peak.get i) = true →
      ge32 (s.env.get i) ((complete .step s).env.get i) = true ∧
      ge32 ((complete .step s).env.get i) ((complete .step s).peak.get i) = true)

/-- R174 (b), R300: with a legal snapshot and a usable applied rate an envelope at +inf falls to a
finite peak in one STEP. -/
def Obligations.InfiniteEnvelopeRecovers : Prop :=
  ∀ (s : State) (i : Band), RegsLegal s.snap → fsOk s.fs = true →
    s.env.get i = 0x7F800000#32 → isFinite ((complete .step s).peak.get i) = true →
    (complete .step s).env.get i = (complete .step s).peak.get i

/-- R172: SLEW_RATE(0) = 500.0, SLEW_RATE(1.0) = 0.001, and the rate does not increase with the
control value. -/
def Obligations.SlewRateBounds : Prop :=
  slewRate 0x00000000#32 = 0x43FA0000#32 ∧ slewRate 0x80000000#32 = 0x43FA0000#32 ∧
  slewRate 0x3F800000#32 = 0x3A83126F#32 ∧
  ∀ a a' : Word, isFinite a = true → isFinite a' = true → le32 a a' = true →
    ge32 (slewRate a) (slewRate a') = true

/-- R212, R213, R214: the output of a STEP is the running sum in band order of the band terms, from
+0.0, times 5, times the output gain; the term of band i is the carrier cascade's output times the
routed coefficient times its band gain. -/
def Obligations.OutputIsTheRunningSum : Prop :=
  ∀ s : State, ∃ t : Lanes Word,
    (∀ i : Band, t.get i = mul32 (mul32 ((((complete .step s).hist.get .car).get i).s1).y1
      (route (complete .step s) i)) (s.snap.bandGain.get i)) ∧
    (complete .step s).out = mul32 (mul32
      ([0, 1, 2, 3, 4, 5, 6, 7, 8, 9, 10, 11, 12, 13, 14, 15].foldl
        (fun acc (i : Band) => add32 acc (t.get i)) 0x00000000#32) 0x40A00000#32) s.snap.outGainKnob

/-- R210, R37: a disconnected modulator or carrier input gives the sample +0 for a legal gain knob,
whatever its register holds. -/
def Obligations.DisconnectedInputsAreSilent : Prop :=
  ∀ l : Regs, RegsLegal l →
    (l.connect.getLsbD 16 = false → modSample l = 0x00000000#32) ∧
    (l.connect.getLsbD 17 = false → carSample l = 0x00000000#32)

/-- R302, R193: what a STEP computes does not depend on the band offset it finds, so a RESET before
it has no effect on it. -/
def Obligations.ResetIsInvisibleToStep : Prop :=
  ∀ (s : State) (o : Word), complete .step { s with bandOffset := o } = complete .step s

/-- R56, R297: a pending command reads only the snapshot: the live registers, the error bits and the
read-data port have no influence on it and are left alone by it. -/
def Obligations.CommandsReadOnlyTheSnapshot : Prop :=
  ∀ (s : State) (op : BusyOp) (r : Regs) (e : BitVec 5) (d : Option Word),
    complete op { s with regs := r, err := e, rdata := d } =
      { complete op s with regs := r, err := e, rdata := d }

/-- Property S7 of 95_test_vectors.md ("output stays at 0 for all time"), for finite coefficients: with
both inputs and all inserts disconnected, every history a zero of either sign, every envelope +0 and
no Q update due, a STEP leaves all that as it is and gives peaks, envelope outputs and output +0. -/
def Obligations.SilenceStaysSilent : Prop :=
  ∀ s : State, RegsLegal s.snap → s.snap.connect.toNat % 262144 = 0 →
    (∀ b : Bank, qHystTest (s.qApplied.get b) (qTarget b s.snap) = false) →
    (∀ (b : Bank) (i : Band) (st : Stage), FiniteCoef (((s.coef.get b).get i).get st)) →
    (∀ (b : Bank) (i : Band) (st : Stage), ZeroHist (((s.hist.get b).get i).get st)) →
    (∀ i : Band, s.env.get i = 0x00000000#32) →
    (complete .step s).out = 0x00000000#32 ∧ (complete .step s).coef = s.coef ∧
    (∀ (b : Bank) (i : Band) (st : Stage),
      ZeroHist ((((complete .step s).hist.get b).get i).get st)) ∧
    ∀ i : Band, (complete .step s).env.get i = 0x00000000#32 ∧
      (complete .step s).peak.get i = 0x00000000#32 ∧
      (complete .step s).envOut.get i = 0x00000000#32

/-! ## The whole machine -/

/-- R47, R157, R292: the histories, envelopes, peaks, envelope outputs and the output change only in
the cycle in which a STEP completes, and by power-on reset. -/
def Obligations.OnlyStepMovesTheSignalState : Prop :=
  ∀ s t : State, step s = .next t →
    (t.hist = s.hist ∧ t.env = s.env ∧ t.peak = s.peak ∧ t.envOut = s.envOut ∧ t.out = s.out) ∨
    (∃ n, s.seq = .busy .step n ∧ n ≤ 1 ∧ t.seq = .idle) ∨
    ∃ p, nextEvent s = .edge p ∧ p.rstN = false

/-- R45, R48, R46: CONFIGURED is set, and the applied rate changed, only in the cycle in which a
CONFIGURE completes; only power-on reset clears CONFIGURED; coefficients and applied Q values change
only in the completion cycle of a command or by power-on reset. -/
def Obligations.OnlyConfigureSetsTheRate : Prop :=
  ∀ (s t : State) (p : Pins), step s = .next t → nextEvent s = .edge p → p.rstN = true →
    (s.configured = true → t.configured = true) ∧
    ((t.configured = s.configured ∧ t.fs = s.fs) ∨
      ∃ n, s.seq = .busy .configure n ∧ n ≤ 1 ∧ t.configured = true ∧ t.fs = s.snap.sampleRate) ∧
    ((t.coef = s.coef ∧ t.qApplied = s.qApplied) ∨ ∃ op n, s.seq = .busy op n ∧ n ≤ 1)

/-- The invariant of the core holds after power-on reset (R58 with R42, R52, R53, R57). -/
def Obligations.InvariantAtReset : Prop := CoreInv State.reset

/-- R42, R45, R48, R52, R53, R57: every step keeps the invariant: registers and snapshot legal, a
pending command's premises, a configured core's rate, Q and coefficients, the band offset's range,
and the envelopes, peaks and envelope outputs of R57. -/
def Obligations.InvariantIsKept : Prop :=
  ∀ s t : State, CoreInv s → step s = .next t → CoreInv t

/-! ## The slew controls -/

/-- R171: the attack and the decay control value are each the sum of the knob and of the control
voltage, mapped and clamped to ±0.25 where it is connected (CONNECT bits 18 and 19), +0.0 where it is
not; for legal registers the value is no NaN and lies in [-0.25, 0.5], and a disconnected control
voltage leaves the knob's value. -/
def Obligations.SlewKnobIsKnobPlusClampedCv : Prop :=
  ∀ l : Regs,
    slewKnob .attack l = add32 l.attackKnob (if l.connect.getLsbD 18 then
      clamp32 (Config.params.cvmapAttack l.attackCv) 0xBE800000#32 0x3E800000#32
      else 0x00000000#32) ∧
    slewKnob .decay l = add32 l.decayKnob (if l.connect.getLsbD 19 then
      clamp32 (Config.params.cvmapDecay l.decayCv) 0xBE800000#32 0x3E800000#32
      else 0x00000000#32) ∧
    (RegsLegal l →
      (∀ w : Slew, le32 0xBE800000#32 (slewKnob w l) = true ∧
        le32 (slewKnob w l) 0x3F000000#32 = true) ∧
      (l.connect.getLsbD 18 = false → slewKnob .attack l = l.attackKnob) ∧
      (l.connect.getLsbD 19 = false → slewKnob .decay l = l.decayKnob))
end

