-- ==== Sys2Proof/Laws/Lanes.lean ====
section
/-!
SUPPORT. Reading and writing the register files' containers.
-/

namespace Sys2Proof.Machine

/-- Two lane files that agree at every band are equal. -/
theorem Lanes.ext_get {α : Type} {v w : Lanes α} (h : ∀ i, v.get i = w.get i) : v = w := by
  cases v; cases w
  simp only [Lanes.mk.injEq]
  exact ⟨h 0, h 1, h 2, h 3, h 4, h 5, h 6, h 7, h 8, h 9, h 10, h 11, h 12, h 13, h 14, h 15⟩

@[simp] theorem Lanes.get_ofFn {α : Type} (f : Band → α) (i : Band) : (Lanes.ofFn f).get i = f i := by
  fin_cases i <;> rfl

@[simp] theorem Lanes.ofFn_get {α : Type} (v : Lanes α) : Lanes.ofFn v.get = v := rfl

@[simp] theorem Lanes.get_fill {α : Type} (x : α) (i : Band) : (Lanes.fill x).get i = x := by
  simp [Lanes.fill]

theorem Lanes.get_set {α : Type} (v : Lanes α) (i j : Band) (x : α) :
    (v.set i x).get j = if j = i then x else v.get j := by
  simp [Lanes.set]

@[simp] theorem Lanes.get_set_same {α : Type} (v : Lanes α) (i : Band) (x : α) :
    (v.set i x).get i = x := by
  simp [Lanes.get_set]

@[simp] theorem Lanes.get_set_other {α : Type} (v : Lanes α) {i j : Band} (x : α) (h : j ≠ i) :
    (v.set i x).get j = v.get j := by
  simp [Lanes.get_set, h]

@[simp] theorem Banks.get_set_same {α : Type} (v : Banks α) (b : Bank) (x : α) :
    (v.set b x).get b = x := by
  cases b <;> rfl

@[simp] theorem Banks.get_set_other {α : Type} (v : Banks α) {b c : Bank} (x : α) (h : c ≠ b) :
    (v.set b x).get c = v.get c := by
  cases b <;> cases c <;> first | rfl | exact absurd rfl h

@[simp] theorem Stages.get_set_same {α : Type} (v : Stages α) (st : Stage) (x : α) :
    (v.set st x).get st = x := by
  cases st <;> rfl

@[simp] theorem Stages.get_set_other {α : Type} (v : Stages α) {a b : Stage} (x : α) (h : b ≠ a) :
    (v.set a x).get b = v.get b := by
  cases a <;> cases b <;> first | rfl | exact absurd rfl h

/-- Two bank files that agree at both banks are equal. -/
theorem Banks.ext_get {α : Type} {v w : Banks α} (h : ∀ b, v.get b = w.get b) : v = w := by
  cases v; cases w
  simp only [Banks.mk.injEq]
  exact ⟨h .mod, h .car⟩

/-- Two stage files that agree at both stages are equal. -/
theorem Stages.ext_get {α : Type} {v w : Stages α} (h : ∀ st, v.get st = w.get st) : v = w := by
  cases v; cases w
  simp only [Stages.mk.injEq]
  exact ⟨h .s0, h .s1⟩

end Sys2Proof.Machine
end

