-- ==== Sys2Proof/Laws/State.lean ====
section
/-!
SUPPORT. One lemma per field per update of the state, so that no later proof unfolds a record update.
-/

namespace Sys2Proof.Machine

section
variable (s : State)

@[simp] theorem raiseError_regs (e : ErrBit) : (raiseError e s).regs = s.regs := rfl
@[simp] theorem raiseError_snap (e : ErrBit) : (raiseError e s).snap = s.snap := rfl
@[simp] theorem raiseError_fs (e : ErrBit) : (raiseError e s).fs = s.fs := rfl
@[simp] theorem raiseError_configured (e : ErrBit) :
    (raiseError e s).configured = s.configured := rfl
@[simp] theorem raiseError_coef (e : ErrBit) : (raiseError e s).coef = s.coef := rfl
@[simp] theorem raiseError_hist (e : ErrBit) : (raiseError e s).hist = s.hist := rfl
@[simp] theorem raiseError_qApplied (e : ErrBit) : (raiseError e s).qApplied = s.qApplied := rfl
@[simp] theorem raiseError_env (e : ErrBit) : (raiseError e s).env = s.env := rfl
@[simp] theorem raiseError_peak (e : ErrBit) : (raiseError e s).peak = s.peak := rfl
@[simp] theorem raiseError_envOut (e : ErrBit) : (raiseError e s).envOut = s.envOut := rfl
@[simp] theorem raiseError_out (e : ErrBit) : (raiseError e s).out = s.out := rfl
@[simp] theorem raiseError_bandOffset (e : ErrBit) :
    (raiseError e s).bandOffset = s.bandOffset := rfl
@[simp] theorem raiseError_seq (e : ErrBit) : (raiseError e s).seq = s.seq := rfl
@[simp] theorem raiseError_err (e : ErrBit) : (raiseError e s).err = s.err ||| e.mask := rfl
@[simp] theorem raiseError_rdata (e : ErrBit) : (raiseError e s).rdata = s.rdata := rfl
@[simp] theorem raiseError_host (e : ErrBit) : (raiseError e s).host = s.host := rfl

@[simp] theorem clearErrors_regs (w : Word) : (clearErrors w s).regs = s.regs := rfl
@[simp] theorem clearErrors_snap (w : Word) : (clearErrors w s).snap = s.snap := rfl
@[simp] theorem clearErrors_fs (w : Word) : (clearErrors w s).fs = s.fs := rfl
@[simp] theorem clearErrors_configured (w : Word) :
    (clearErrors w s).configured = s.configured := rfl
@[simp] theorem clearErrors_coef (w : Word) : (clearErrors w s).coef = s.coef := rfl
@[simp] theorem clearErrors_hist (w : Word) : (clearErrors w s).hist = s.hist := rfl
@[simp] theorem clearErrors_qApplied (w : Word) : (clearErrors w s).qApplied = s.qApplied := rfl
@[simp] theorem clearErrors_env (w : Word) : (clearErrors w s).env = s.env := rfl
@[simp] theorem clearErrors_peak (w : Word) : (clearErrors w s).peak = s.peak := rfl
@[simp] theorem clearErrors_envOut (w : Word) : (clearErrors w s).envOut = s.envOut := rfl
@[simp] theorem clearErrors_out (w : Word) : (clearErrors w s).out = s.out := rfl
@[simp] theorem clearErrors_bandOffset (w : Word) :
    (clearErrors w s).bandOffset = s.bandOffset := rfl
@[simp] theorem clearErrors_seq (w : Word) : (clearErrors w s).seq = s.seq := rfl
@[simp] theorem clearErrors_err (w : Word) : (clearErrors w s).err = errAfterClear s.err w := rfl
@[simp] theorem clearErrors_rdata (w : Word) : (clearErrors w s).rdata = s.rdata := rfl
@[simp] theorem clearErrors_host (w : Word) : (clearErrors w s).host = s.host := rfl

@[simp] theorem returnData_regs (w : Word) : (returnData w s).regs = s.regs := rfl
@[simp] theorem returnData_snap (w : Word) : (returnData w s).snap = s.snap := rfl
@[simp] theorem returnData_fs (w : Word) : (returnData w s).fs = s.fs := rfl
@[simp] theorem returnData_configured (w : Word) : (returnData w s).configured = s.configured := rfl
@[simp] theorem returnData_coef (w : Word) : (returnData w s).coef = s.coef := rfl
@[simp] theorem returnData_hist (w : Word) : (returnData w s).hist = s.hist := rfl
@[simp] theorem returnData_qApplied (w : Word) : (returnData w s).qApplied = s.qApplied := rfl
@[simp] theorem returnData_env (w : Word) : (returnData w s).env = s.env := rfl
@[simp] theorem returnData_peak (w : Word) : (returnData w s).peak = s.peak := rfl
@[simp] theorem returnData_envOut (w : Word) : (returnData w s).envOut = s.envOut := rfl
@[simp] theorem returnData_out (w : Word) : (returnData w s).out = s.out := rfl
@[simp] theorem returnData_bandOffset (w : Word) : (returnData w s).bandOffset = s.bandOffset := rfl
@[simp] theorem returnData_seq (w : Word) : (returnData w s).seq = s.seq := rfl
@[simp] theorem returnData_err (w : Word) : (returnData w s).err = s.err := rfl
@[simp] theorem returnData_rdata (w : Word) : (returnData w s).rdata = some w := rfl
@[simp] theorem returnData_host (w : Word) : (returnData w s).host = s.host := rfl

@[simp] theorem busErrorRead_regs : (busErrorRead s).regs = s.regs := rfl
@[simp] theorem busErrorRead_snap : (busErrorRead s).snap = s.snap := rfl
@[simp] theorem busErrorRead_fs : (busErrorRead s).fs = s.fs := rfl
@[simp] theorem busErrorRead_configured : (busErrorRead s).configured = s.configured := rfl
@[simp] theorem busErrorRead_coef : (busErrorRead s).coef = s.coef := rfl
@[simp] theorem busErrorRead_hist : (busErrorRead s).hist = s.hist := rfl
@[simp] theorem busErrorRead_qApplied : (busErrorRead s).qApplied = s.qApplied := rfl
@[simp] theorem busErrorRead_env : (busErrorRead s).env = s.env := rfl
@[simp] theorem busErrorRead_peak : (busErrorRead s).peak = s.peak := rfl
@[simp] theorem busErrorRead_envOut : (busErrorRead s).envOut = s.envOut := rfl
@[simp] theorem busErrorRead_out : (busErrorRead s).out = s.out := rfl
@[simp] theorem busErrorRead_bandOffset : (busErrorRead s).bandOffset = s.bandOffset := rfl
@[simp] theorem busErrorRead_seq : (busErrorRead s).seq = s.seq := rfl
@[simp] theorem busErrorRead_err : (busErrorRead s).err = s.err ||| ErrBit.bus.mask := rfl
@[simp] theorem busErrorRead_rdata : (busErrorRead s).rdata = some 0x00000000#32 := rfl
@[simp] theorem busErrorRead_host : (busErrorRead s).host = s.host := rfl

@[simp] theorem busErrorWrite_regs : (busErrorWrite s).regs = s.regs := rfl
@[simp] theorem busErrorWrite_snap : (busErrorWrite s).snap = s.snap := rfl
@[simp] theorem busErrorWrite_fs : (busErrorWrite s).fs = s.fs := rfl
@[simp] theorem busErrorWrite_configured : (busErrorWrite s).configured = s.configured := rfl
@[simp] theorem busErrorWrite_coef : (busErrorWrite s).coef = s.coef := rfl
@[simp] theorem busErrorWrite_hist : (busErrorWrite s).hist = s.hist := rfl
@[simp] theorem busErrorWrite_qApplied : (busErrorWrite s).qApplied = s.qApplied := rfl
@[simp] theorem busErrorWrite_env : (busErrorWrite s).env = s.env := rfl
@[simp] theorem busErrorWrite_peak : (busErrorWrite s).peak = s.peak := rfl
@[simp] theorem busErrorWrite_envOut : (busErrorWrite s).envOut = s.envOut := rfl
@[simp] theorem busErrorWrite_out : (busErrorWrite s).out = s.out := rfl
@[simp] theorem busErrorWrite_bandOffset : (busErrorWrite s).bandOffset = s.bandOffset := rfl
@[simp] theorem busErrorWrite_seq : (busErrorWrite s).seq = s.seq := rfl
@[simp] theorem busErrorWrite_err : (busErrorWrite s).err = s.err ||| ErrBit.bus.mask := rfl
@[simp] theorem busErrorWrite_rdata : (busErrorWrite s).rdata = s.rdata := rfl
@[simp] theorem busErrorWrite_host : (busErrorWrite s).host = s.host := rfl

@[simp] theorem accept_regs (op : BusyOp) : (accept op s).regs = s.regs := rfl
@[simp] theorem accept_snap (op : BusyOp) : (accept op s).snap = s.regs := rfl
@[simp] theorem accept_fs (op : BusyOp) : (accept op s).fs = s.fs := rfl
@[simp] theorem accept_configured (op : BusyOp) : (accept op s).configured = s.configured := rfl
@[simp] theorem accept_coef (op : BusyOp) : (accept op s).coef = s.coef := rfl
@[simp] theorem accept_hist (op : BusyOp) : (accept op s).hist = s.hist := rfl
@[simp] theorem accept_qApplied (op : BusyOp) : (accept op s).qApplied = s.qApplied := rfl
@[simp] theorem accept_env (op : BusyOp) : (accept op s).env = s.env := rfl
@[simp] theorem accept_peak (op : BusyOp) : (accept op s).peak = s.peak := rfl
@[simp] theorem accept_envOut (op : BusyOp) : (accept op s).envOut = s.envOut := rfl
@[simp] theorem accept_out (op : BusyOp) : (accept op s).out = s.out := rfl
@[simp] theorem accept_bandOffset (op : BusyOp) : (accept op s).bandOffset = s.bandOffset := rfl
@[simp] theorem accept_seq (op : BusyOp) : (accept op s).seq = .busy op (latency op) := rfl
@[simp] theorem accept_err (op : BusyOp) : (accept op s).err = s.err := rfl
@[simp] theorem accept_rdata (op : BusyOp) : (accept op s).rdata = s.rdata := rfl
@[simp] theorem accept_host (op : BusyOp) : (accept op s).host = s.host := rfl

@[simp] theorem dropData_regs : (dropData s).regs = s.regs := rfl
@[simp] theorem dropData_snap : (dropData s).snap = s.snap := rfl
@[simp] theorem dropData_fs : (dropData s).fs = s.fs := rfl
@[simp] theorem dropData_configured : (dropData s).configured = s.configured := rfl
@[simp] theorem dropData_coef : (dropData s).coef = s.coef := rfl
@[simp] theorem dropData_hist : (dropData s).hist = s.hist := rfl
@[simp] theorem dropData_qApplied : (dropData s).qApplied = s.qApplied := rfl
@[simp] theorem dropData_env : (dropData s).env = s.env := rfl
@[simp] theorem dropData_peak : (dropData s).peak = s.peak := rfl
@[simp] theorem dropData_envOut : (dropData s).envOut = s.envOut := rfl
@[simp] theorem dropData_out : (dropData s).out = s.out := rfl
@[simp] theorem dropData_bandOffset : (dropData s).bandOffset = s.bandOffset := rfl
@[simp] theorem dropData_seq : (dropData s).seq = s.seq := rfl
@[simp] theorem dropData_err : (dropData s).err = s.err := rfl
@[simp] theorem dropData_rdata : (dropData s).rdata = none := rfl
@[simp] theorem dropData_host : (dropData s).host = s.host := rfl

@[simp] theorem popEvent_regs : (popEvent s).regs = s.regs := rfl
@[simp] theorem popEvent_snap : (popEvent s).snap = s.snap := rfl
@[simp] theorem popEvent_fs : (popEvent s).fs = s.fs := rfl
@[simp] theorem popEvent_configured : (popEvent s).configured = s.configured := rfl
@[simp] theorem popEvent_coef : (popEvent s).coef = s.coef := rfl
@[simp] theorem popEvent_hist : (popEvent s).hist = s.hist := rfl
@[simp] theorem popEvent_qApplied : (popEvent s).qApplied = s.qApplied := rfl
@[simp] theorem popEvent_env : (popEvent s).env = s.env := rfl
@[simp] theorem popEvent_peak : (popEvent s).peak = s.peak := rfl
@[simp] theorem popEvent_envOut : (popEvent s).envOut = s.envOut := rfl
@[simp] theorem popEvent_out : (popEvent s).out = s.out := rfl
@[simp] theorem popEvent_bandOffset : (popEvent s).bandOffset = s.bandOffset := rfl
@[simp] theorem popEvent_seq : (popEvent s).seq = s.seq := rfl
@[simp] theorem popEvent_err : (popEvent s).err = s.err := rfl
@[simp] theorem popEvent_rdata : (popEvent s).rdata = s.rdata := rfl
@[simp] theorem popEvent_host : (popEvent s).host = s.host.tail := rfl

@[simp] theorem pushEvent_regs (e : HostEvent) : (pushEvent e s).regs = s.regs := rfl
@[simp] theorem pushEvent_snap (e : HostEvent) : (pushEvent e s).snap = s.snap := rfl
@[simp] theorem pushEvent_fs (e : HostEvent) : (pushEvent e s).fs = s.fs := rfl
@[simp] theorem pushEvent_configured (e : HostEvent) :
    (pushEvent e s).configured = s.configured := rfl
@[simp] theorem pushEvent_coef (e : HostEvent) : (pushEvent e s).coef = s.coef := rfl
@[simp] theorem pushEvent_hist (e : HostEvent) : (pushEvent e s).hist = s.hist := rfl
@[simp] theorem pushEvent_qApplied (e : HostEvent) : (pushEvent e s).qApplied = s.qApplied := rfl
@[simp] theorem pushEvent_env (e : HostEvent) : (pushEvent e s).env = s.env := rfl
@[simp] theorem pushEvent_peak (e : HostEvent) : (pushEvent e s).peak = s.peak := rfl
@[simp] theorem pushEvent_envOut (e : HostEvent) : (pushEvent e s).envOut = s.envOut := rfl
@[simp] theorem pushEvent_out (e : HostEvent) : (pushEvent e s).out = s.out := rfl
@[simp] theorem pushEvent_bandOffset (e : HostEvent) :
    (pushEvent e s).bandOffset = s.bandOffset := rfl
@[simp] theorem pushEvent_seq (e : HostEvent) : (pushEvent e s).seq = s.seq := rfl
@[simp] theorem pushEvent_err (e : HostEvent) : (pushEvent e s).err = s.err := rfl
@[simp] theorem pushEvent_rdata (e : HostEvent) : (pushEvent e s).rdata = s.rdata := rfl
@[simp] theorem pushEvent_host (e : HostEvent) : (pushEvent e s).host = e :: s.host := rfl

@[simp] theorem bofsStep_regs : (bofsStep s).regs = s.regs := rfl
@[simp] theorem bofsStep_snap : (bofsStep s).snap = s.snap := rfl
@[simp] theorem bofsStep_fs : (bofsStep s).fs = s.fs := rfl
@[simp] theorem bofsStep_configured : (bofsStep s).configured = s.configured := rfl
@[simp] theorem bofsStep_coef : (bofsStep s).coef = s.coef := rfl
@[simp] theorem bofsStep_hist : (bofsStep s).hist = s.hist := rfl
@[simp] theorem bofsStep_qApplied : (bofsStep s).qApplied = s.qApplied := rfl
@[simp] theorem bofsStep_env : (bofsStep s).env = s.env := rfl
@[simp] theorem bofsStep_peak : (bofsStep s).peak = s.peak := rfl
@[simp] theorem bofsStep_envOut : (bofsStep s).envOut = s.envOut := rfl
@[simp] theorem bofsStep_out : (bofsStep s).out = s.out := rfl
@[simp] theorem bofsStep_bandOffset :
    (bofsStep s).bandOffset = BitVec.ofInt 32 (bofsWrap (bofsRaw s.snap)) := rfl
@[simp] theorem bofsStep_seq : (bofsStep s).seq = s.seq := rfl
@[simp] theorem bofsStep_err : (bofsStep s).err = s.err := rfl
@[simp] theorem bofsStep_rdata : (bofsStep s).rdata = s.rdata := rfl
@[simp] theorem bofsStep_host : (bofsStep s).host = s.host := rfl

@[simp] theorem analyse_regs (xm rAtt rDec : Word) : (analyse xm rAtt rDec s).regs = s.regs := rfl
@[simp] theorem analyse_snap (xm rAtt rDec : Word) : (analyse xm rAtt rDec s).snap = s.snap := rfl
@[simp] theorem analyse_fs (xm rAtt rDec : Word) : (analyse xm rAtt rDec s).fs = s.fs := rfl
@[simp] theorem analyse_configured (xm rAtt rDec : Word) :
    (analyse xm rAtt rDec s).configured = s.configured := rfl
@[simp] theorem analyse_coef (xm rAtt rDec : Word) : (analyse xm rAtt rDec s).coef = s.coef := rfl
@[simp] theorem analyse_hist (xm rAtt rDec : Word) :
    (analyse xm rAtt rDec s).hist = s.hist.set .mod (bankHist .mod xm s) := rfl
@[simp] theorem analyse_qApplied (xm rAtt rDec : Word) :
    (analyse xm rAtt rDec s).qApplied = s.qApplied := rfl
@[simp] theorem analyse_env (xm rAtt rDec : Word) : (analyse xm rAtt rDec s).env = Lanes.ofFn fun i =>
      envNext (s.env.get i) (abs32 (cascadeAt .mod i xm s).1) rAtt rDec s.fs := by
  simp only [analyse, Lanes.get_ofFn]
@[simp] theorem analyse_peak (xm rAtt rDec : Word) :
    (analyse xm rAtt rDec s).peak = Lanes.ofFn fun i => abs32 (cascadeAt .mod i xm s).1 := rfl
@[simp] theorem analyse_envOut (xm rAtt rDec : Word) : (analyse xm rAtt rDec s).envOut = Lanes.ofFn fun i =>
      envOutOf (envNext (s.env.get i) (abs32 (cascadeAt .mod i xm s).1) rAtt rDec s.fs) := by
  simp only [analyse, Lanes.get_ofFn]
@[simp] theorem analyse_out (xm rAtt rDec : Word) : (analyse xm rAtt rDec s).out = s.out := rfl
@[simp] theorem analyse_bandOffset (xm rAtt rDec : Word) :
    (analyse xm rAtt rDec s).bandOffset = s.bandOffset := rfl
@[simp] theorem analyse_seq (xm rAtt rDec : Word) : (analyse xm rAtt rDec s).seq = s.seq := rfl
@[simp] theorem analyse_err (xm rAtt rDec : Word) : (analyse xm rAtt rDec s).err = s.err := rfl
@[simp] theorem analyse_rdata (xm rAtt rDec : Word) :
    (analyse xm rAtt rDec s).rdata = s.rdata := rfl
@[simp] theorem analyse_host (xm rAtt rDec : Word) : (analyse xm rAtt rDec s).host = s.host := rfl

@[simp] theorem synthesise_regs (xc : Word) : (synthesise xc s).regs = s.regs := rfl
@[simp] theorem synthesise_snap (xc : Word) : (synthesise xc s).snap = s.snap := rfl
@[simp] theorem synthesise_fs (xc : Word) : (synthesise xc s).fs = s.fs := rfl
@[simp] theorem synthesise_configured (xc : Word) :
    (synthesise xc s).configured = s.configured := rfl
@[simp] theorem synthesise_coef (xc : Word) : (synthesise xc s).coef = s.coef := rfl
@[simp] theorem synthesise_hist (xc : Word) :
    (synthesise xc s).hist = s.hist.set .car (bankHist .car xc s) := rfl
@[simp] theorem synthesise_qApplied (xc : Word) : (synthesise xc s).qApplied = s.qApplied := rfl
@[simp] theorem synthesise_env (xc : Word) : (synthesise xc s).env = s.env := rfl
@[simp] theorem synthesise_peak (xc : Word) : (synthesise xc s).peak = s.peak := rfl
@[simp] theorem synthesise_envOut (xc : Word) : (synthesise xc s).envOut = s.envOut := rfl
@[simp] theorem synthesise_out (xc : Word) :
    (synthesise xc s).out = outScale (sumTerms (bandTerms xc s)) s.snap.outGainKnob := by
  simp only [synthesise]
@[simp] theorem synthesise_bandOffset (xc : Word) :
    (synthesise xc s).bandOffset = s.bandOffset := rfl
@[simp] theorem synthesise_seq (xc : Word) : (synthesise xc s).seq = s.seq := rfl
@[simp] theorem synthesise_err (xc : Word) : (synthesise xc s).err = s.err := rfl
@[simp] theorem synthesise_rdata (xc : Word) : (synthesise xc s).rdata = s.rdata := rfl
@[simp] theorem synthesise_host (xc : Word) : (synthesise xc s).host = s.host := rfl

@[simp] theorem configureCommit_regs : (configureCommit s).regs = s.regs := rfl
@[simp] theorem configureCommit_snap : (configureCommit s).snap = s.snap := rfl
@[simp] theorem configureCommit_fs : (configureCommit s).fs = s.snap.sampleRate := rfl
@[simp] theorem configureCommit_configured : (configureCommit s).configured = true := rfl
@[simp] theorem configureCommit_coef : (configureCommit s).coef = ⟨bankCoef s.snap.sampleRate (qTarget .mod s.snap),
      bankCoef s.snap.sampleRate (qTarget .car s.snap)⟩ := rfl
@[simp] theorem configureCommit_hist : (configureCommit s).hist = s.hist := rfl
@[simp] theorem configureCommit_qApplied :
    (configureCommit s).qApplied = ⟨qTarget .mod s.snap, qTarget .car s.snap⟩ := rfl
@[simp] theorem configureCommit_env : (configureCommit s).env = s.env := rfl
@[simp] theorem configureCommit_peak : (configureCommit s).peak = s.peak := rfl
@[simp] theorem configureCommit_envOut : (configureCommit s).envOut = s.envOut := rfl
@[simp] theorem configureCommit_out : (configureCommit s).out = s.out := rfl
@[simp] theorem configureCommit_bandOffset : (configureCommit s).bandOffset = s.bandOffset := rfl
@[simp] theorem configureCommit_seq : (configureCommit s).seq = s.seq := rfl
@[simp] theorem configureCommit_err : (configureCommit s).err = s.err := rfl
@[simp] theorem configureCommit_rdata : (configureCommit s).rdata = s.rdata := rfl
@[simp] theorem configureCommit_host : (configureCommit s).host = s.host := rfl

@[simp] theorem qUpdate_regs (b : Bank) (t : Word) : (qUpdate b t s).regs = s.regs := by
  unfold qUpdate; split <;> rfl
@[simp] theorem qUpdate_snap (b : Bank) (t : Word) : (qUpdate b t s).snap = s.snap := by
  unfold qUpdate; split <;> rfl
@[simp] theorem qUpdate_fs (b : Bank) (t : Word) : (qUpdate b t s).fs = s.fs := by
  unfold qUpdate; split <;> rfl
@[simp] theorem qUpdate_configured (b : Bank) (t : Word) : (qUpdate b t s).configured = s.configured := by
  unfold qUpdate; split <;> rfl
@[simp] theorem qUpdate_hist (b : Bank) (t : Word) : (qUpdate b t s).hist = s.hist := by
  unfold qUpdate; split <;> rfl
@[simp] theorem qUpdate_env (b : Bank) (t : Word) : (qUpdate b t s).env = s.env := by
  unfold qUpdate; split <;> rfl
@[simp] theorem qUpdate_peak (b : Bank) (t : Word) : (qUpdate b t s).peak = s.peak := by
  unfold qUpdate; split <;> rfl
@[simp] theorem qUpdate_envOut (b : Bank) (t : Word) : (qUpdate b t s).envOut = s.envOut := by
  unfold qUpdate; split <;> rfl
@[simp] theorem qUpdate_out (b : Bank) (t : Word) : (qUpdate b t s).out = s.out := by
  unfold qUpdate; split <;> rfl
@[simp] theorem qUpdate_bandOffset (b : Bank) (t : Word) : (qUpdate b t s).bandOffset = s.bandOffset := by
  unfold qUpdate; split <;> rfl
@[simp] theorem qUpdate_seq (b : Bank) (t : Word) : (qUpdate b t s).seq = s.seq := by
  unfold qUpdate; split <;> rfl
@[simp] theorem qUpdate_err (b : Bank) (t : Word) : (qUpdate b t s).err = s.err := by
  unfold qUpdate; split <;> rfl
@[simp] theorem qUpdate_rdata (b : Bank) (t : Word) : (qUpdate b t s).rdata = s.rdata := by
  unfold qUpdate; split <;> rfl
@[simp] theorem qUpdate_host (b : Bank) (t : Word) : (qUpdate b t s).host = s.host := by
  unfold qUpdate; split <;> rfl

/-- Where the hysteresis test passes, the bank has the new coefficients (R153). -/
theorem qUpdate_pass {b : Bank} {t : Word} (h : qHystTest (s.qApplied.get b) t = true) :
    qUpdate b t s =
      { s with coef := s.coef.set b (bankCoef s.fs t), qApplied := s.qApplied.set b t } := by
  simp [qUpdate, h]

/-- Where it fails, nothing changes (R153). -/
theorem qUpdate_fail {b : Bank} {t : Word} (h : qHystTest (s.qApplied.get b) t = false) :
    qUpdate b t s = s := by
  simp [qUpdate, h]

@[simp] theorem prepare_regs : (prepare s).regs = s.regs := by simp [prepare]
@[simp] theorem prepare_snap : (prepare s).snap = s.snap := by simp [prepare]
@[simp] theorem prepare_fs : (prepare s).fs = s.fs := by simp [prepare]
@[simp] theorem prepare_configured : (prepare s).configured = s.configured := by simp [prepare]
@[simp] theorem prepare_hist : (prepare s).hist = s.hist := by simp [prepare]
@[simp] theorem prepare_env : (prepare s).env = s.env := by simp [prepare]
@[simp] theorem prepare_peak : (prepare s).peak = s.peak := by simp [prepare]
@[simp] theorem prepare_envOut : (prepare s).envOut = s.envOut := by simp [prepare]
@[simp] theorem prepare_out : (prepare s).out = s.out := by simp [prepare]
@[simp] theorem prepare_bandOffset : (prepare s).bandOffset = BitVec.ofInt 32 (bofsWrap (bofsRaw s.snap)) := by simp [prepare]
@[simp] theorem prepare_seq : (prepare s).seq = s.seq := by simp [prepare]
@[simp] theorem prepare_err : (prepare s).err = s.err := by simp [prepare]
@[simp] theorem prepare_rdata : (prepare s).rdata = s.rdata := by simp [prepare]
@[simp] theorem prepare_host : (prepare s).host = s.host := by simp [prepare]

@[simp] theorem stepCommit_regs : (stepCommit s).regs = s.regs := by simp [stepCommit]
@[simp] theorem stepCommit_snap : (stepCommit s).snap = s.snap := by simp [stepCommit]
@[simp] theorem stepCommit_fs : (stepCommit s).fs = s.fs := by simp [stepCommit]
@[simp] theorem stepCommit_configured :
    (stepCommit s).configured = s.configured := by simp [stepCommit]
@[simp] theorem stepCommit_bandOffset :
    (stepCommit s).bandOffset = BitVec.ofInt 32 (bofsWrap (bofsRaw s.snap)) := by simp [stepCommit]
@[simp] theorem stepCommit_seq : (stepCommit s).seq = s.seq := by simp [stepCommit]
@[simp] theorem stepCommit_err : (stepCommit s).err = s.err := by simp [stepCommit]
@[simp] theorem stepCommit_rdata : (stepCommit s).rdata = s.rdata := by simp [stepCommit]
@[simp] theorem stepCommit_host : (stepCommit s).host = s.host := by simp [stepCommit]
@[simp] theorem stepCommit_coef : (stepCommit s).coef = (prepare s).coef := by simp [stepCommit]
@[simp] theorem stepCommit_qApplied : (stepCommit s).qApplied = (prepare s).qApplied := by simp [stepCommit]

@[simp] theorem complete_regs (op : BusyOp) : (complete op s).regs = s.regs := by
  cases op <;> simp [complete]
@[simp] theorem complete_snap (op : BusyOp) : (complete op s).snap = s.snap := by
  cases op <;> simp [complete]
@[simp] theorem complete_err (op : BusyOp) : (complete op s).err = s.err := by
  cases op <;> simp [complete]
@[simp] theorem complete_rdata (op : BusyOp) : (complete op s).rdata = s.rdata := by
  cases op <;> simp [complete]
@[simp] theorem complete_host (op : BusyOp) : (complete op s).host = s.host := by
  cases op <;> simp [complete]
@[simp] theorem complete_seq (op : BusyOp) : (complete op s).seq = .idle := by
  cases op <;> rfl

@[simp] theorem tick_regs : (tick s).regs = s.regs := by
  unfold tick; split <;> [rfl; (split <;> simp)]
@[simp] theorem tick_snap : (tick s).snap = s.snap := by
  unfold tick; split <;> [rfl; (split <;> simp)]
@[simp] theorem tick_err : (tick s).err = s.err := by
  unfold tick; split <;> [rfl; (split <;> simp)]
@[simp] theorem tick_rdata : (tick s).rdata = s.rdata := by
  unfold tick; split <;> [rfl; (split <;> simp)]
@[simp] theorem tick_host : (tick s).host = s.host := by
  unfold tick; split <;> [rfl; (split <;> simp)]

end

end Sys2Proof.Machine
end

