-- ==== Sys2Proof/Laws/Access.lean ====
section
/-!
SUPPORT. Everything an access and a clock cycle can do, said once: `Effect` lists the state changes
an instruction or a rejected access can make, and `step_cases` says what one step is made of.
-/

namespace Sys2Proof.Machine

/-- The state changes one access can make (R230, R262, R72, R73). -/
inductive Effect (s : State) : State → Prop
  | none : Effect s s
  | error (e : ErrBit) : Effect s (raiseError e s)
  | readError : Effect s (busErrorRead s)
  | data (w : Word) : Effect s (returnData w s)
  | clear (w : Word) : Effect s (clearErrors w s)
  | store (r : Reg) (w : Word) (h : r.isStored = true) :
      Effect s { s with regs := storeReg s.regs r w }
  | offset (h : busyFlag s = false) : Effect s { s with bandOffset := 0x00000000#32 }
  | acceptStep (h : busyFlag s = false) (hc : s.configured = true) : Effect s (accept .step s)
  | acceptConfigure (h : busyFlag s = false) (hf : fsOk s.regs.sampleRate = true) :
      Effect s (accept .configure s)

theorem execNop_effect (s : State) : ∃ t, execNop s = .next t ∧ Effect s t := ⟨s, rfl, .none⟩

theorem execStep_effect (s : State) : ∃ t, execStep s = .next t ∧ Effect s t := by
  unfold execStep
  cases hb : busyFlag s
  · cases hc : s.configured
    · exact ⟨_, rfl, .error _⟩
    · exact ⟨_, rfl, .acceptStep hb hc⟩
  · exact ⟨_, rfl, .error _⟩

theorem execReset_effect (s : State) : ∃ t, execReset s = .next t ∧ Effect s t := by
  unfold execReset
  cases hb : busyFlag s
  · exact ⟨_, rfl, .offset hb⟩
  · exact ⟨_, rfl, .error _⟩

theorem execConfigure_effect (s : State) : ∃ t, execConfigure s = .next t ∧ Effect s t := by
  unfold execConfigure
  cases hb : busyFlag s
  · cases hf : fsOk s.regs.sampleRate
    · exact ⟨_, rfl, .error _⟩
    · exact ⟨_, rfl, .acceptConfigure hb hf⟩
  · exact ⟨_, rfl, .error _⟩

theorem command_effect (w : Word) (s : State) : ∃ t, command w s = .next t ∧ Effect s t := by
  unfold command
  split
  · exact execNop_effect s
  · exact execStep_effect s
  · exact execReset_effect s
  · exact execConfigure_effect s
  all_goals exact ⟨_, rfl, .error _⟩

theorem memRead_effect (be : ByteEnables) (off : Offset) (s : State) :
    Effect s (memRead be off s) := by
  unfold memRead
  split
  · split
    · exact .data _
    · exact .readError
  · exact .readError

theorem writeReg_effect (r : Reg) (w : Word) (s : State) :
    ∃ t, writeReg r w s = .next t ∧ Effect s t := by
  unfold writeReg
  split
  · exact command_effect w s
  · split
    · exact ⟨_, rfl, .clear w⟩
    · split
      · rename_i h; exact ⟨_, rfl, .store r w h⟩
      · exact ⟨_, rfl, .error _⟩

theorem memWrite_effect (be : ByteEnables) (off : Offset) (w : Word) (s : State) :
    ∃ t, memWrite be off w s = .next t ∧ Effect s t := by
  unfold memWrite
  split
  · split
    · exact writeReg_effect _ w s
    · exact ⟨_, rfl, .error _⟩
  · exact ⟨_, rfl, .error _⟩

/-- Every instruction answers a next state, by one of the listed changes (R260). -/
theorem exec_effect (i : Instr) (s : State) : ∃ t, exec i s = .next t ∧ Effect s t := by
  cases i with
  | nop => exact execNop_effect s
  | step => exact execStep_effect s
  | reset => exact execReset_effect s
  | configure => exact execConfigure_effect s
  | rd off => exact ⟨_, rfl, memRead_effect _ off s⟩
  | wr off w => exact memWrite_effect _ off w s

theorem rejected_effect (r : Reject) (p : Pins) (s : State) : Effect s (rejected r p s) := by
  cases r <;> simp only [rejected]
  · exact .error _
  all_goals split <;> first | exact .error _ | exact .readError

theorem access_effect (p : Pins) (s : State) : ∃ t, access p s = .next t ∧ Effect s t := by
  unfold access
  split
  · split
    · exact exec_effect _ s
    · exact ⟨_, rfl, rejected_effect _ p s⟩
  · exact ⟨s, rfl, .none⟩

theorem busyFlag_of_seq {s t : State} (h : t.seq = s.seq) : busyFlag t = busyFlag s := by
  simp [busyFlag, h]

theorem tick_of_idle {s : State} (h : busyFlag s = false) : tick s = s := by
  unfold busyFlag at h; unfold tick; split <;> simp_all

/-- An access while a command is pending leaves the command, its snapshot and everything it will
read or write as they were (R56, R262, R271). -/
theorem Effect.busy {s t : State} (h : Effect s t) (hb : busyFlag s = true) :
    SameInternal s t ∧ t.seq = s.seq ∧ t.snap = s.snap ∧ t.host = s.host := by
  cases h with
  | offset h => simp [h] at hb
  | acceptStep h _ => simp [h] at hb
  | acceptConfigure h _ => simp [h] at hb
  | _ => exact ⟨⟨rfl, rfl, rfl, rfl, rfl, rfl, rfl, rfl, rfl, rfl⟩, rfl, rfl, rfl⟩

/-- No access touches what the host does next. -/
theorem Effect.host {s t : State} (h : Effect s t) : t.host = s.host := by
  cases h <;> rfl

/-- What one edge with `rst_n` high is made of (R71, R305). -/
theorem runEdge_effect (p : Pins) (s : State) :
    ∃ u, access p (dropData s) = .next u ∧ Effect (dropData s) u ∧
      runEdge p s = .next (if busyFlag s then tick u else u) := by
  obtain ⟨u, hu, he⟩ := access_effect p (dropData s)
  refine ⟨u, hu, he, ?_⟩
  unfold runEdge
  rw [hu]
  split <;> simp [*]

/-- Everything one step can do (R71, R290, R279). -/
theorem step_cases {s t : State} (h : step s = .next t) :
    ∃ p, nextEvent s = .edge p ∧
      ((p.rstN = false ∧ t = resetEdge p (popEvent s)) ∨
        (p.rstN = true ∧ ∃ u, access p (dropData (popEvent s)) = .next u ∧
          Effect (dropData (popEvent s)) u ∧ t = if busyFlag s then tick u else u)) := by
  unfold step at h
  split at h
  · rename_i p hp
    refine ⟨p, hp, ?_⟩
    unfold clockEdge at h
    split at h
    · rename_i hr
      obtain ⟨u, hu, he, hru⟩ := runEdge_effect p (popEvent s)
      rw [hru] at h
      exact .inr ⟨hr, u, hu, he, by cases h; rfl⟩
    · rename_i hr
      exact .inl ⟨by simpa using hr, by cases h; rfl⟩
  · cases h

/-- An idle core's cycle is its access alone, a busy core's also counts down. -/
theorem step_run {s : State} {p : Pins} (hp : nextEvent s = .edge p) (hr : p.rstN = true) :
    ∃ u, access p (dropData (popEvent s)) = .next u ∧ Effect (dropData (popEvent s)) u ∧
      step s = .next (if busyFlag s then tick u else u) := by
  obtain ⟨u, hu, he, hru⟩ := runEdge_effect p (popEvent s)
  refine ⟨u, hu, he, ?_⟩
  simp only [step, hp, clockEdge, hr, if_true]
  exact hru

end Sys2Proof.Machine
end

