-- ==== Sys2Proof/Laws/Binary32.lean ====
section
/-!
SUPPORT. What the binary32 primitives can do: the layout, signs, NaNs, the clamp, and that rounding is
monotone and exact on representable values (R16 to R20).
-/

namespace Sys2Proof.Machine

/-! ### The layout -/

theorem magBits_lt (w : Word) : magBits w < 2147483648 := by unfold magBits; omega

theorem toNat_eq (w : Word) : w.toNat = (if isNeg w then 2147483648 else 0) + magBits w := by
  have := w.isLt
  by_cases h : 2147483648 ≤ w.toNat <;> simp [isNeg, magBits, h] <;> omega

/-- A word is its sign and its magnitude bits. -/
theorem word_ext {a b : Word} (hs : isNeg a = isNeg b) (hm : magBits a = magBits b) : a = b := by
  apply BitVec.eq_of_toNat_eq
  rw [toNat_eq a, toNat_eq b, hs, hm]

theorem pack_toNat (neg : Bool) {m : Nat} (h : m < 2147483648) :
    (pack neg m).toNat = (if neg then 2147483648 else 0) + m := by
  rw [pack, BitVec.toNat_ofNat, Nat.mod_eq_of_lt h]
  cases neg <;> simp <;> omega

@[simp] theorem magBits_pack (neg : Bool) {m : Nat} (h : m < 2147483648) :
    magBits (pack neg m) = m := by
  rw [magBits, pack_toNat neg h]; cases neg <;> simp <;> omega

@[simp] theorem isNeg_pack (neg : Bool) (m : Nat) : isNeg (pack neg m) = neg := by
  have h : m % 2147483648 < 2147483648 := Nat.mod_lt _ (by decide)
  have : pack neg m = pack neg (m % 2147483648) := by simp [pack]
  rw [this, isNeg, pack_toNat neg h]; cases neg <;> simp; omega

@[simp] theorem pack_self (w : Word) : pack (isNeg w) (magBits w) = w :=
  word_ext (by simp) (by simp [magBits_lt])

@[simp] theorem isNeg_qNaN : isNeg qNaN = false := by decide
@[simp] theorem isNaN_qNaN : isNaN qNaN = true := by decide
@[simp] theorem isNeg_inf32 (neg : Bool) : isNeg (inf32 neg) = neg := by simp [inf32]
@[simp] theorem magBits_inf32 (neg : Bool) : magBits (inf32 neg) = 0x7F800000 := by simp [inf32]
@[simp] theorem isNaN_inf32 (neg : Bool) : isNaN (inf32 neg) = false := by simp [isNaN]
@[simp] theorem isNeg_abs32 (w : Word) : isNeg (abs32 w) = false := by simp [abs32]
@[simp] theorem magBits_abs32 (w : Word) : magBits (abs32 w) = magBits w := by
  simp [abs32, magBits_lt]
@[simp] theorem isNaN_abs32 (w : Word) : isNaN (abs32 w) = isNaN w := by simp [isNaN]
@[simp] theorem isNeg_neg32 (w : Word) : isNeg (neg32 w) = !isNeg w := by simp [neg32]
@[simp] theorem magBits_neg32 (w : Word) : magBits (neg32 w) = magBits w := by
  simp [neg32, magBits_lt]
@[simp] theorem isNaN_neg32 (w : Word) : isNaN (neg32 w) = isNaN w := by simp [isNaN]
@[simp] theorem isInf_neg32 (w : Word) : isInf (neg32 w) = isInf w := by simp [isInf]
@[simp] theorem units_neg32 (w : Word) : units (neg32 w) = units w := by simp [units]
@[simp] theorem signedUnits_neg32 (w : Word) : signedUnits (neg32 w) = -signedUnits w := by
  cases h : isNeg w <;> simp [signedUnits, h]

/-! ### Rounding -/

theorem roundUnits_le (num den : Nat) : roundUnits num den ≤ 0x7F800000 := Nat.min_le_right _ _

theorem roundUnits_lt (num den : Nat) : roundUnits num den < 2147483648 :=
  lt_of_le_of_lt (roundUnits_le num den) (by decide)

/-- The last place kept is 2^k units with k the length of the quotient beyond 24 bits. -/
theorem roundUnits_eq {num den k : Nat} (hk : Nat.log2 (num / den) - 23 = k) :
    roundUnits num den =
      min (k * 8388608 + (if den * 2 ^ k < 2 * (num % (den * 2 ^ k)) ∨
          (2 * (num % (den * 2 ^ k)) = den * 2 ^ k ∧ num / (den * 2 ^ k) % 2 = 1)
        then num / (den * 2 ^ k) + 1 else num / (den * 2 ^ k))) 0x7F800000 := by
  subst hk; rfl

/-- A representable magnitude rounds to itself. -/
theorem roundUnits_units {w : Word} (h : isFinite w = true) : roundUnits (units w) 1 = magBits w := by
  have hm : magBits w < 0x7F800000 := by simpa [isFinite] using h
  by_cases he : magBits w / 8388608 = 0
  · have hu : units w = magBits w := by simp [units, he]; omega
    have hl : Nat.log2 (units w / 1) - 23 = 0 := by
      rw [Nat.div_one, hu]
      have : magBits w < 2 ^ 24 := by omega
      by_cases h0 : magBits w = 0
      · simp [h0]
      · have := (Nat.log2_lt h0).2 this; omega
    rw [roundUnits_eq hl]
    simp only [hu]
    rw [if_neg (by omega)]
    omega
  · obtain ⟨e, he'⟩ : ∃ e, magBits w / 8388608 = e + 1 := ⟨_, (Nat.succ_pred he).symm⟩
    have hu : units w = (8388608 + magBits w % 8388608) * 2 ^ e := by simp [units, he']
    have hpos : 0 < 2 ^ e := Nat.two_pow_pos e
    have hl : Nat.log2 (units w / 1) - 23 = e := by
      rw [Nat.div_one, hu]
      have h0 : (8388608 + magBits w % 8388608) * 2 ^ e ≠ 0 := by positivity
      have h1 : (8388608 + magBits w % 8388608) * 2 ^ e < 2 ^ (24 + e) := by
        rw [pow_add]; exact Nat.mul_lt_mul_of_pos_right (by omega) hpos
      have h2 : 2 ^ (23 + e) ≤ (8388608 + magBits w % 8388608) * 2 ^ e := by
        rw [pow_add]; exact Nat.mul_le_mul_right _ (by omega)
      have h3 := (Nat.log2_lt h0).2 h1
      have h4 := (Nat.le_log2 h0).2 h2
      omega
    rw [roundUnits_eq hl, hu, Nat.one_mul, Nat.mul_mod_left, Nat.mul_div_cancel _ hpos,
      if_neg (by omega)]
    omega

/-- The quotient kept fits 24 bits, and has exactly 24 where the last place is above one unit. -/
theorem keptQuotient_bounds {num den k : Nat}
    (hk : Nat.log2 (num / den) - 23 = k) :
    num / (den * 2 ^ k) < 2 ^ 24 ∧ (0 < k → 2 ^ 23 ≤ num / (den * 2 ^ k)) := by
  rw [← Nat.div_div_eq_div_mul]
  by_cases h0 : num / den = 0
  · rw [h0] at hk ⊢; simp at hk; subst hk; simp
  · have hlt : num / den < 2 ^ (k + 24) := (Nat.log2_lt h0).1 (by omega)
    constructor
    · apply Nat.div_lt_of_lt_mul; rw [← pow_add]; exact hlt
    · intro hk0
      have : 2 ^ (k + 23) ≤ num / den := (Nat.le_log2 h0).1 (by omega)
      rw [Nat.le_div_iff_mul_le (Nat.two_pow_pos k), ← pow_add, Nat.add_comm]; exact this

/-- Rounding is monotone. -/
theorem roundUnits_mono {num num' den : Nat} (h : num ≤ num') :
    roundUnits num den ≤ roundUnits num' den := by
  obtain ⟨k, hk⟩ : ∃ k, Nat.log2 (num / den) - 23 = k := ⟨_, rfl⟩
  obtain ⟨k', hk'⟩ : ∃ k, Nat.log2 (num' / den) - 23 = k := ⟨_, rfl⟩
  have hkk : k ≤ k' := by
    have hdiv : num / den ≤ num' / den := Nat.div_le_div_right h
    by_cases h0 : num / den = 0
    · rw [h0] at hk; simp at hk; omega
    · have h1 : num' / den ≠ 0 := fun h => h0 (Nat.le_zero.1 (h ▸ hdiv))
      have := (Nat.le_log2 h1).2 (((Nat.le_log2 h0).1 le_rfl).trans hdiv)
      omega
  rw [roundUnits_eq hk, roundUnits_eq hk']
  apply min_le_min_right
  obtain ⟨q1, -⟩ := keptQuotient_bounds hk
  obtain ⟨-, q2⟩ := keptQuotient_bounds hk'
  rcases Nat.lt_or_eq_of_le hkk with hlt | rfl
  · have q3 := q2 (by omega)
    have : (k + 1) * 8388608 ≤ k' * 8388608 := Nat.mul_le_mul_right _ hlt
    split <;> split <;> omega
  · apply Nat.add_le_add_left
    have hq : num / (den * 2 ^ k) ≤ num' / (den * 2 ^ k) := Nat.div_le_div_right h
    have e1 := Nat.div_add_mod num (den * 2 ^ k)
    have e2 := Nat.div_add_mod num' (den * 2 ^ k)
    rcases Nat.lt_or_eq_of_le hq with hlt | heq
    · split <;> split <;> omega
    · rw [heq] at e1 ⊢
      have hr : num % (den * 2 ^ k) ≤ num' % (den * 2 ^ k) := by omega
      split <;> split <;> omega

/-- A larger magnitude is a larger number of units. -/
theorem units_mono {a b : Word} (h : magBits a ≤ magBits b) : units a ≤ units b := by
  have step1 : ∀ m n : Nat, m ≤ n →
      (if m / 8388608 = 0 then m % 8388608 else (8388608 + m % 8388608) * 2 ^ (m / 8388608 - 1)) ≤
      (if n / 8388608 = 0 then n % 8388608 else (8388608 + n % 8388608) * 2 ^ (n / 8388608 - 1)) := by
    intro m n hmn
    have hd : m / 8388608 ≤ n / 8388608 := Nat.div_le_div_right hmn
    have hpn : 0 < 2 ^ (n / 8388608 - 1) := Nat.two_pow_pos _
    split
    · split
      · omega
      · have : 8388608 + n % 8388608 ≤ (8388608 + n % 8388608) * 2 ^ (n / 8388608 - 1) :=
          Nat.le_mul_of_pos_right _ hpn
        omega
    · rename_i hm0
      rw [if_neg (by omega)]
      rcases Nat.lt_or_eq_of_le hd with hlt | heq
      · calc (8388608 + m % 8388608) * 2 ^ (m / 8388608 - 1)
            ≤ (8388608 * 2) * 2 ^ (m / 8388608 - 1) := Nat.mul_le_mul_right _ (by omega)
          _ = 8388608 * 2 ^ (m / 8388608 - 1 + 1) := by rw [Nat.mul_assoc, ← pow_succ']
          _ ≤ 8388608 * 2 ^ (n / 8388608 - 1) :=
              Nat.mul_le_mul_left _ (Nat.pow_le_pow_right (by decide) (by omega))
          _ ≤ _ := Nat.mul_le_mul_right _ (by omega)
      · rw [heq]; exact Nat.mul_le_mul_right _ (by omega)
  exact step1 _ _ h

theorem units_pos {w : Word} (h : magBits w ≠ 0) : 0 < units w := by
  unfold units; dsimp only; split
  · omega
  · positivity

theorem units_zero {w : Word} (h : magBits w = 0) : units w = 0 := by simp [units, h]

/-! ### Signs of results -/

theorem isNeg_roundSigned {z : Int} (b : Bool) (hz : 0 < z ∨ (z = 0 ∧ b = false)) :
    isNeg (roundSigned b z) = false := by
  unfold roundSigned
  rcases hz with h | ⟨h, hb⟩
  · rw [if_neg (by omega)]; simp; omega
  · simp [h, hb]

theorem signedUnits_nonneg {w : Word} (h : isNeg w = false) : 0 ≤ signedUnits w := by
  simp [signedUnits, h]

/-- The sum of two operands with clear sign bits has a clear sign bit; a NaN result is `qNaN`. -/
theorem isNeg_add32 {a b : Word} (ha : isNeg a = false) (hb : isNeg b = false) :
    isNeg (add32 a b) = false := by
  unfold add32
  simp only [ha, hb]
  split; · simp
  split; · simp
  split; · simp
  apply isNeg_roundSigned
  have h1 := signedUnits_nonneg ha
  have h2 := signedUnits_nonneg hb
  rcases Int.lt_or_eq_of_le (Int.add_nonneg h1 h2) with h | h
  · exact .inl h
  · exact .inr ⟨h.symm, rfl⟩

theorem isNeg_mul32 {a b : Word} (ha : isNeg a = false) (hb : isNeg b = false) :
    isNeg (mul32 a b) = false := by
  unfold mul32
  simp only [ha, hb]
  split; · simp
  split; · split <;> simp
  simp

theorem isNeg_div32 {a b : Word} (ha : isNeg a = false) (hb : isNeg b = false) :
    isNeg (div32 a b) = false := by
  unfold div32
  simp only [ha, hb]
  split; · simp
  split; · split <;> simp
  split; · simp
  split; · split <;> simp
  simp

/-! ### Order, minimum, maximum and clamp -/

theorem lt32_iff {a b : Word} :
    lt32 a b = true ↔ isNaN a = false ∧ isNaN b = false ∧ orderKey a < orderKey b := by
  simp [lt32, and_assoc]

theorem ge32_iff {a b : Word} :
    ge32 a b = true ↔ isNaN a = false ∧ isNaN b = false ∧ orderKey b ≤ orderKey a := by
  simp [ge32, and_assoc]

/-- The total order separates all words that are no NaNs. -/
theorem totalKey_inj {a b : Word} (h : totalKey a = totalKey b) : a = b := by
  unfold totalKey at h
  apply word_ext
  · cases ha : isNeg a <;> cases hb : isNeg b <;> simp [ha, hb] at h ⊢ <;> omega
  · cases ha : isNeg a <;> cases hb : isNeg b <;> simp [ha, hb] at h ⊢ <;> omega

theorem isNeg_iff_totalKey (w : Word) : isNeg w = false ↔ 0 ≤ totalKey w := by
  cases h : isNeg w <;> simp [totalKey, h]
  omega

theorem maxnum_of_not_nan {a b : Word} (ha : isNaN a = false) (hb : isNaN b = false) :
    maxnum a b = if totalKey a < totalKey b then b else a := by simp [maxnum, ha, hb]

theorem minnum_of_not_nan {a b : Word} (ha : isNaN a = false) (hb : isNaN b = false) :
    minnum a b = if totalKey b < totalKey a then b else a := by simp [minnum, ha, hb]

/-- With a bound that is no NaN, maxnum is one of its operands, no NaN and not below the bound. -/
theorem maxnum_spec (a : Word) {b : Word} (hb : isNaN b = false) :
    isNaN (maxnum a b) = false ∧ totalKey b ≤ totalKey (maxnum a b) ∧
      (maxnum a b = a ∨ maxnum a b = b) := by
  cases ha : isNaN a
  · rw [maxnum_of_not_nan ha hb]; split <;> simp [*]; omega
  · simp [maxnum, ha, hb]

/-- With a bound that is no NaN, minnum is one of its operands, no NaN and not above the bound. -/
theorem minnum_spec (a : Word) {b : Word} (hb : isNaN b = false) :
    isNaN (minnum a b) = false ∧ totalKey (minnum a b) ≤ totalKey b ∧
      (minnum a b = a ∨ minnum a b = b) := by
  cases ha : isNaN a
  · rw [minnum_of_not_nan ha hb]; split <;> simp [*]; omega
  · simp [minnum, ha, hb]

/-- A clamp between ordered bounds that are no NaNs gives a value between them (R19). -/
theorem clamp32_spec (x : Word) {lo hi : Word} (hlo : isNaN lo = false) (hhi : isNaN hi = false)
    (h : totalKey lo ≤ totalKey hi) :
    isNaN (clamp32 x lo hi) = false ∧ totalKey lo ≤ totalKey (clamp32 x lo hi) ∧
      totalKey (clamp32 x lo hi) ≤ totalKey hi := by
  obtain ⟨-, m2, -⟩ := maxnum_spec x hlo
  obtain ⟨n1, n2, n3⟩ := minnum_spec (maxnum x lo) hhi
  refine ⟨n1, ?_, n2⟩
  unfold clamp32
  rcases n3 with e | e <;> rw [e] <;> assumption

/-- A clamp keeps a value already between its bounds. -/
theorem clamp32_id {x lo hi : Word} (hx : isNaN x = false) (hlo : isNaN lo = false)
    (hhi : isNaN hi = false) (h1 : totalKey lo ≤ totalKey x) (h2 : totalKey x ≤ totalKey hi) :
    clamp32 x lo hi = x := by
  unfold clamp32
  rw [maxnum_of_not_nan hx hlo, if_neg (by omega), minnum_of_not_nan hx hhi, if_neg (by omega)]

/-- A NaN clamps to the lower bound (R19). -/
theorem clamp32_nan {x lo hi : Word} (hx : isNaN x = true) (hlo : isNaN lo = false)
    (hhi : isNaN hi = false) (h : totalKey lo ≤ totalKey hi) : clamp32 x lo hi = lo := by
  have : maxnum x lo = lo := by simp [maxnum, hx, hlo]
  rw [clamp32, this, minnum_of_not_nan hlo hhi, if_neg (by omega)]

/-! ### Exact sums -/

/-- Adding +0 gives a nonzero operand back, and +0 for +0. -/
theorem add32_zero {a : Word} (h : isNaN a = false) (hz : magBits a ≠ 0 ∨ isNeg a = false) :
    add32 a 0x00000000#32 = a := by
  have z1 : isNaN 0x00000000#32 = false := by decide
  have z2 : isInf 0x00000000#32 = false := by decide
  have z3 : isNeg 0x00000000#32 = false := by decide
  have z4 : signedUnits 0x00000000#32 = 0 := by decide
  unfold add32
  simp only [h, z1, z2, z3, z4]
  by_cases hi : isInf a = true
  · have hm : magBits a = 0x7F800000 := by simpa [isInf] using hi
    simp only [hi, Bool.or_self, Bool.false_and, if_true]
    exact word_ext (by simp) (by simp [hm])
  · have hf : isFinite a = true := by
      simp [isNaN, isInf, isFinite] at h hi ⊢; omega
    simp only [hi, Bool.or_self, Int.add_zero, Bool.and_false]
    by_cases h0 : magBits a = 0
    · have hn : isNeg a = false := by simpa [h0] using hz
      have : signedUnits a = 0 := by simp [signedUnits, units_zero h0]
      simp only [this, roundSigned, if_true]
      exact word_ext (by simp [hn]) (by simp [h0])
    · have hu := units_pos h0
      have hne : signedUnits a ≠ 0 := by
        unfold signedUnits; split <;> omega
      have hab : (signedUnits a).natAbs = units a := by
        unfold signedUnits; split <;> omega
      have hsg : decide (signedUnits a < 0) = isNeg a := by
        unfold signedUnits
        cases hn : isNeg a <;> simp; omega
      simp [roundSigned, hne, hab, hsg, roundUnits_units hf]

end Sys2Proof.Machine
end

