-- ==== Sys2Proof/Laws/Datapath.lean ====
section
/-!
SUPPORT. What the datapath reads and what it leaves alone: a command's computation commutes with any
change of the live registers, the sequencer, the error bits and the ports (R56), and agreement on
the internal state is an equivalence.
-/

namespace Sys2Proof.Machine

theorem SameInternal.refl (s : State) : SameInternal s s :=
  ⟨rfl, rfl, rfl, rfl, rfl, rfl, rfl, rfl, rfl, rfl⟩

theorem SameInternal.symm {s t : State} (h : SameInternal s t) : SameInternal t s :=
  ⟨h.1.symm, h.2.symm, h.3.symm, h.4.symm, h.5.symm, h.6.symm, h.7.symm, h.8.symm, h.9.symm,
    h.10.symm⟩

theorem SameInternal.trans {s t u : State} (h : SameInternal s t) (g : SameInternal t u) :
    SameInternal s u :=
  ⟨g.1.trans h.1, g.2.trans h.2, g.3.trans h.3, g.4.trans h.4, g.5.trans h.5, g.6.trans h.6,
    g.7.trans h.7, g.8.trans h.8, g.9.trans h.9, g.10.trans h.10⟩

/-- The state with other contents outside the snapshot and the internal elements of R45 to R52. -/
def withOutside (r : Regs) (q : Seq) (e : BitVec 5) (d : Option Word) (h : List HostEvent)
    (s : State) : State :=
  { s with regs := r, seq := q, err := e, rdata := d, host := h }

/-- Two states that agree on the internal elements and the snapshot differ outside only. -/
theorem SameInternal.eq_withOutside {s t : State} (h : SameInternal s t) (hs : t.snap = s.snap) :
    t = withOutside t.regs t.seq t.err t.rdata t.host s := by
  cases s; cases t; cases h; simp_all [withOutside]

section
variable (r : Regs) (q : Seq) (e : BitVec 5) (d : Option Word) (h : List HostEvent) (s : State)

theorem qUpdate_withOutside (b : Bank) (t : Word) :
    qUpdate b t (withOutside r q e d h s) = withOutside r q e d h (qUpdate b t s) := by
  cases hq : qHystTest (s.qApplied.get b) t
  · rw [qUpdate_fail s hq, qUpdate_fail (withOutside r q e d h s) hq]
  · rw [qUpdate_pass s hq, qUpdate_pass (withOutside r q e d h s) hq]; rfl

theorem prepare_withOutside :
    prepare (withOutside r q e d h s) = withOutside r q e d h (prepare s) := by
  have : bofsStep (withOutside r q e d h s) = withOutside r q e d h (bofsStep s) := rfl
  simp only [prepare, this, qUpdate_withOutside]
  rfl

theorem analyse_withOutside (xm rAtt rDec : Word) :
    analyse xm rAtt rDec (withOutside r q e d h s) =
      withOutside r q e d h (analyse xm rAtt rDec s) := by
  simp only [analyse, bankHist, cascadeAt, withOutside]

theorem synthesise_withOutside (xc : Word) :
    synthesise xc (withOutside r q e d h s) = withOutside r q e d h (synthesise xc s) := by
  simp only [synthesise, bankHist, bandTerms, cascadeAt, route, rot, withOutside]
  rfl

theorem stepCommit_withOutside :
    stepCommit (withOutside r q e d h s) = withOutside r q e d h (stepCommit s) := by
  have : (withOutside r q e d h s).snap = s.snap := rfl
  simp only [stepCommit, this, prepare_withOutside, analyse_withOutside, synthesise_withOutside]

/-- A completion commutes with every change outside the snapshot and the internal elements, but that
it leaves the sequencer IDLE. -/
theorem complete_withOutside (op : BusyOp) :
    complete op (withOutside r q e d h s) = withOutside r .idle e d h (complete op s) := by
  cases op
  · simp only [complete, stepCommit_withOutside]; rfl
  · rfl

end

/-- Completion preserves agreement on the internal elements. -/
theorem complete_sameInternal (op : BusyOp) {s t : State} (h : SameInternal s t)
    (hs : t.snap = s.snap) : SameInternal (complete op s) (complete op t) := by
  rw [h.eq_withOutside hs, complete_withOutside]
  exact ⟨rfl, rfl, rfl, rfl, rfl, rfl, rfl, rfl, rfl, rfl⟩

/-- The state a STEP's steps 5 and 6 start from, with the fields they read spelled out (R232). -/
theorem stepCommit_hist (s : State) (b : Bank) (i : Band) :
    ((stepCommit s).hist.get b).get i =
      (cascade (((prepare s).coef.get b).get i) ((s.hist.get b).get i)
        (match b with
        | .mod => modSample s.snap
        | .car => carSample s.snap)).2 := by
  cases b <;> simp [stepCommit, Banks.get, Banks.set, bankHist, cascadeAt]

theorem stepCommit_peak (s : State) (i : Band) :
    (stepCommit s).peak.get i =
      abs32 (cascade (((prepare s).coef.get .mod).get i) ((s.hist.get .mod).get i)
        (modSample s.snap)).1 := by
  simp [stepCommit, cascadeAt]

theorem stepCommit_env (s : State) (i : Band) :
    (stepCommit s).env.get i =
      envNext (s.env.get i) ((stepCommit s).peak.get i) (slewRate (slewKnob .attack s.snap))
        (slewRate (slewKnob .decay s.snap)) s.fs := by
  simp [stepCommit, cascadeAt]

theorem stepCommit_envOut (s : State) (i : Band) :
    (stepCommit s).envOut.get i = envOutOf ((stepCommit s).env.get i) := by
  simp [stepCommit, cascadeAt]

/-- The applied Q and the coefficients a Q update leaves in its own bank (R153). -/
theorem qUpdate_same (b : Bank) (t : Word) (s : State) :
    (qUpdate b t s).qApplied.get b = (if qHystTest (s.qApplied.get b) t then t else s.qApplied.get b) ∧
      (qUpdate b t s).coef.get b =
        (if qHystTest (s.qApplied.get b) t then bankCoef s.fs t else s.coef.get b) := by
  cases hq : qHystTest (s.qApplied.get b) t
  · rw [qUpdate_fail s hq]; simp
  · rw [qUpdate_pass s hq]; simp

/-- and in the other bank (R154). -/
theorem qUpdate_other {b c : Bank} (h : c ≠ b) (t : Word) (s : State) :
    (qUpdate b t s).qApplied.get c = s.qApplied.get c ∧
      (qUpdate b t s).coef.get c = s.coef.get c := by
  cases hq : qHystTest (s.qApplied.get b) t
  · rw [qUpdate_fail s hq]; simp
  · rw [qUpdate_pass s hq]; simp [h]

/-- The applied Q and the coefficients a STEP leaves in a bank (R153, R154). -/
theorem prepare_bank (s : State) (b : Bank) :
    (prepare s).qApplied.get b =
        (if qHystTest (s.qApplied.get b) (qTarget b s.snap) then qTarget b s.snap
          else s.qApplied.get b) ∧
      (prepare s).coef.get b =
        (if qHystTest (s.qApplied.get b) (qTarget b s.snap) then bankCoef s.fs (qTarget b s.snap)
          else s.coef.get b) := by
  obtain ⟨m1, m2⟩ := qUpdate_same .mod (qTarget .mod s.snap) (bofsStep s)
  obtain ⟨c1, c2⟩ := qUpdate_same .car (qTarget .car s.snap)
    (qUpdate .mod (qTarget .mod s.snap) (bofsStep s))
  obtain ⟨n1, n2⟩ := qUpdate_other (b := .mod) (c := .car) (by decide) (qTarget .mod s.snap)
    (bofsStep s)
  obtain ⟨d1, d2⟩ := qUpdate_other (b := .car) (c := .mod) (by decide) (qTarget .car s.snap)
    (qUpdate .mod (qTarget .mod s.snap) (bofsStep s))
  cases b
  · exact ⟨d1.trans m1, d2.trans m2⟩
  · rw [n1] at c1 c2; rw [n2] at c2
    unfold prepare
    exact ⟨c1, by simpa using c2⟩

/-- What a routed coefficient depends on (R195). -/
theorem route_congr {s t : State} (hl : t.snap = s.snap) (ho : t.bandOffset = s.bandOffset)
    (he : t.env = s.env) (i : Band) : route t i = route s i := by
  have hr : rot t i = rot s i := by rw [rot, ho, rot]
  unfold route
  rw [hr, hl, he]

/-- The carrier cascade and the band terms of step 6, from the state step 5 leaves (R212). -/
theorem stepCommit_term (s : State) (i : Band) :
    bandTerm (cascade (((prepare s).coef.get .car).get i) ((s.hist.get .car).get i)
        (carSample s.snap)).1 (route (stepCommit s) i) (s.snap.bandGain.get i) =
      (bandTerms (carSample s.snap) (analyse (modSample s.snap) (slewRate (slewKnob .attack s.snap))
        (slewRate (slewKnob .decay s.snap)) (prepare s))).get i := by
  have hr := route_congr (s := analyse (modSample s.snap) (slewRate (slewKnob .attack s.snap))
    (slewRate (slewKnob .decay s.snap)) (prepare s)) (t := stepCommit s)
    (by simp only [stepCommit_snap, analyse_snap, prepare_snap])
    (by simp only [stepCommit_bandOffset, analyse_bandOffset, prepare_bandOffset])
    (by simp only [stepCommit, synthesise_env]) i
  simp only [bandTerms, Lanes.get_ofFn, cascadeAt, analyse_snap, prepare_snap, analyse_coef,
    analyse_hist, prepare_hist, hr, Banks.get_set_other _ _ (by decide : Bank.car ≠ Bank.mod)]

/-- The output of a STEP is the scaled sum of those terms (R213, R214). -/
theorem stepCommit_out (s : State) :
    (stepCommit s).out = outScale (sumTerms (bandTerms (carSample s.snap)
      (analyse (modSample s.snap) (slewRate (slewKnob .attack s.snap))
        (slewRate (slewKnob .decay s.snap)) (prepare s)))) s.snap.outGainKnob := by
  simp only [stepCommit, synthesise_out, analyse_snap, prepare_snap]

section
variable (s : State)

theorem complete_step_hist : (complete .step s).hist = (stepCommit s).hist := by
  simp only [complete]

theorem complete_step_coef : (complete .step s).coef = (prepare s).coef := by
  simp only [complete, stepCommit_coef]

theorem complete_step_qApplied : (complete .step s).qApplied = (prepare s).qApplied := by
  simp only [complete, stepCommit_qApplied]

theorem complete_step_env : (complete .step s).env = (stepCommit s).env := by
  simp only [complete]

theorem complete_step_peak : (complete .step s).peak = (stepCommit s).peak := by
  simp only [complete]

theorem complete_step_envOut : (complete .step s).envOut = (stepCommit s).envOut := by
  simp only [complete]

theorem complete_step_out : (complete .step s).out = (stepCommit s).out := by
  simp only [complete]

theorem complete_step_fs : (complete .step s).fs = s.fs := by
  simp only [complete, stepCommit_fs]

theorem complete_step_configured : (complete .step s).configured = s.configured := by
  simp only [complete, stepCommit_configured]

theorem complete_step_bandOffset :
    (complete .step s).bandOffset = BitVec.ofInt 32 (bofsWrap (bofsRaw s.snap)) := by
  simp only [complete, stepCommit_bandOffset]

end

/-- The first output of a biquad history is the output just computed (R133). -/
theorem cascade_out (c : Stages Coef) (h : Stages Hist) (x : Word) :
    (cascade c h x).1 = ((cascade c h x).2.s1).y1 := by
  simp only [cascade, bqProcess, bqShift]

end Sys2Proof.Machine
end

