-- ==== Sys2Proof/Laws/Envelope.lean ====
section
/-!
SUPPORT. Order and sign of the additions in the envelope follower (R173, R174), and the finiteness of the
slew controls (R171, R172).
-/

namespace Sys2Proof.Machine

theorem orderKey_of_pos {w : Word} (h : isNeg w = false) : orderKey w = magBits w := by
  simp [orderKey, h]

theorem isNeg_of_orderKey_pos {w : Word} (h : 0 < orderKey w) : isNeg w = false := by
  cases hn : isNeg w
  · rfl
  · simp [orderKey, hn] at h; omega

theorem finite_of_not {w : Word} (hn : isNaN w = false) (hi : isInf w = false) :
    isFinite w = true := by
  simp [isNaN, isInf, isFinite] at *; omega

theorem magBits_le_inf {w : Word} (h : isNaN w = false) : magBits w ≤ 0x7F800000 := by
  simpa [isNaN] using h

theorem isNaN_of_magBits {w : Word} (h : magBits w ≤ 0x7F800000) : isNaN w = false := by
  simpa [isNaN] using h

theorem magBits_pack_round (neg : Bool) (n d : Nat) :
    magBits (pack neg (roundUnits n d)) = roundUnits n d := magBits_pack neg (roundUnits_lt n d)

theorem isNaN_roundSigned (b : Bool) (z : Int) : isNaN (roundSigned b z) = false := by
  unfold roundSigned; split
  · cases b <;> decide
  · exact isNaN_of_magBits (by rw [magBits_pack_round]; exact roundUnits_le _ _)

/-- Rounding a signed amount is monotone against a value that is already a finite word. -/
theorem orderKey_roundSigned_le {z : Int} (b : Bool) {c : Word} (hc : isNeg c = false)
    (hf : isFinite c = true) (h : z ≤ units c) : orderKey (roundSigned b z) ≤ orderKey c := by
  rw [orderKey_of_pos hc]
  unfold roundSigned; split
  · have : magBits (pack b 0) = 0 := magBits_pack b (by decide)
    unfold orderKey; split <;> omega
  · unfold orderKey; rw [magBits_pack_round, isNeg_pack]
    by_cases hz : z < 0
    · simp [hz]
    · simp only [hz, decide_false, Bool.false_eq_true, if_false]
      have := roundUnits_mono (den := 1) (show z.natAbs ≤ units c by omega)
      rw [roundUnits_units hf] at this
      exact_mod_cast this

theorem le_orderKey_roundSigned {z : Int} (b : Bool) {c : Word} (hc : isNeg c = false)
    (hf : isFinite c = true) (h : (units c : Int) ≤ z) : orderKey c ≤ orderKey (roundSigned b z) := by
  rw [orderKey_of_pos hc]
  unfold roundSigned; split
  · rename_i hz
    have hu : ¬ magBits c ≠ 0 := fun hm => by have := units_pos hm; omega
    have : magBits (pack b 0) = 0 := magBits_pack b (by decide)
    unfold orderKey; split <;> omega
  · unfold orderKey; rw [magBits_pack_round, isNeg_pack]
    have hz : ¬ z < 0 := by omega
    simp only [hz, decide_false, Bool.false_eq_true, if_false]
    have := roundUnits_mono (den := 1) (show units c ≤ z.natAbs by omega)
    rw [roundUnits_units hf] at this
    exact_mod_cast this

/-- Adding a value that is not negative does not move a value that is not negative down. -/
theorem le_add32 {c d : Word} (hc : isNaN c = false) (hd : isNaN d = false) (nc : isNeg c = false)
    (nd : isNeg d = false) :
    isNaN (add32 c d) = false ∧ orderKey c ≤ orderKey (add32 c d) := by
  have hle := magBits_le_inf hc
  have hinf : orderKey (inf32 false) = 0x7F800000 := by decide
  unfold add32
  simp only [hc, hd, nc, nd, Bool.false_or, Bool.false_eq_true, if_false, bne_self_eq_false,
    Bool.and_false, Bool.and_self]
  by_cases ic : isInf c = true
  · rw [if_pos ic]; refine ⟨by simp, ?_⟩
    rw [hinf, orderKey_of_pos nc]; omega
  · rw [if_neg ic]
    by_cases id' : isInf d = true
    · rw [if_pos id']; refine ⟨by simp, ?_⟩
      rw [hinf, orderKey_of_pos nc]; omega
    · rw [if_neg id']
      refine ⟨isNaN_roundSigned _ _, le_orderKey_roundSigned _ nc (finite_of_not hc (by simpa using ic)) ?_⟩
      have := signedUnits_nonneg nd
      simp only [signedUnits, nc, Bool.false_eq_true, if_false] at this ⊢
      omega

/-- Subtracting a value that is not negative does not move a value that is not negative up. -/
theorem sub32_le {c d : Word} (hc : isNaN c = false) (nc : isNeg c = false) (nd : isNeg d = false)
    (h : isNaN (sub32 c d) = false) : orderKey (sub32 c d) ≤ orderKey c := by
  have hle := magBits_le_inf hc
  unfold sub32 add32 at h ⊢
  have hd : isNaN d = false := by
    cases hd : isNaN d
    · rfl
    · simp [hd] at h
  simp only [hc, hd, nc, nd, isNaN_neg32, isInf_neg32, isNeg_neg32, signedUnits_neg32, Bool.false_or,
    Bool.false_eq_true, if_false] at h ⊢
  by_cases ic : isInf c = true
  · have hm : magBits c = 0x7F800000 := by simpa [isInf] using ic
    rw [if_pos ic] at h ⊢
    split at h
    · simp at h
    · rename_i hne; rw [if_neg hne, orderKey_of_pos nc, hm]; decide
  · rw [if_neg ic] at h ⊢
    by_cases id' : isInf d = true
    · rw [if_pos id', orderKey_of_pos nc]
      have : orderKey (inf32 (!false)) = -0x7F800000 := by decide
      omega
    · rw [if_neg id']
      refine orderKey_roundSigned_le _ nc (finite_of_not hc (by simpa using ic)) ?_
      have := signedUnits_nonneg nd
      simp only [signedUnits, nc, Bool.false_eq_true, if_false] at this ⊢
      omega

/-- The gap between two values that are not negative has a clear sign bit from the larger one. -/
theorem isNeg_gap {a b : Word} (na : isNeg a = false) (nb : isNeg b = false)
    (h : orderKey b ≤ orderKey a) : isNeg (sub32 a b) = false := by
  rw [orderKey_of_pos na, orderKey_of_pos nb] at h
  unfold sub32 add32
  simp only [na, nb, isNaN_neg32, isInf_neg32, isNeg_neg32, signedUnits_neg32]
  split
  · exact isNeg_qNaN
  · rename_i hn
    split
    · split
      · exact isNeg_qNaN
      · exact isNeg_inf32 _
    · split
      · rename_i h1 h2
        simp only [isInf, decide_eq_true_eq] at h1 h2
        have : isNaN a = false := by
          cases h : isNaN a
          · rfl
          · simp [h] at hn
        have := magBits_le_inf this
        omega
      · apply isNeg_roundSigned
        have := units_mono (by omega : magBits b ≤ magBits a)
        have h1 : signedUnits a = units a := by simp [signedUnits, na]
        have h2 : signedUnits b = units b := by simp [signedUnits, nb]
        rw [h1, h2]
        by_cases he : units a = units b
        · right; constructor
          · omega
          · rfl
        · left; omega

/-- The movement of both branches is NaN or not negative (R173, R174). -/
theorem isNeg_slewDelta {r g f : Word} (hr : isNeg r = false) (hg : isNeg g = false)
    (hf : isNeg f = false) : isNeg (slewDelta r g f) = false :=
  isNeg_div32 (isNeg_mul32 (isNeg_mul32 hr (by decide)) hg) hf

/-- A clamp to bounds of small magnitude is finite. -/
theorem finite_of_range {lo hi x : Word} (h1 : totalKey lo ≤ totalKey x)
    (h2 : totalKey x ≤ totalKey hi) (hlo : -0x7F800000 ≤ totalKey lo)
    (hhi : totalKey hi < 0x7F800000) : isFinite x = true := by
  have := h1; have := h2
  unfold isFinite
  rw [decide_eq_true_eq]
  have hk : totalKey x = if isNeg x then -(magBits x : Int) - 1 else magBits x := rfl
  split at hk <;> omega

/-- The control-voltage contribution of a slew control lies in ±0.25 (R171). -/
theorem slewCv_range (w : Slew) (l : Regs) :
    totalKey slewCvLimNeg ≤ totalKey (slewCv w l) ∧ totalKey (slewCv w l) ≤ totalKey slewCvLim := by
  cases w <;> simp only [slewCv] <;> split <;>
    first
    | exact (clamp32_spec _ (by decide) (by decide) (by decide)).2
    | exact ⟨by decide, by decide⟩

/-- The sum of two finite words within 2^127 is finite. -/
theorem finite_add32 {a b : Word} (ha : magBits a ≤ 0x7E000000) (hb : magBits b ≤ 0x7E000000) :
    isFinite (add32 a b) = true := by
  have hb' : magBits 0x7E000000#32 = 0x7E000000 := by decide
  have ua := units_mono (show magBits a ≤ magBits 0x7E000000#32 by rw [hb']; exact ha)
  have ub := units_mono (show magBits b ≤ magBits 0x7E000000#32 by rw [hb']; exact hb)
  have hsum : units 0x7E000000#32 + units 0x7E000000#32 = units 0x7E800000#32 := by decide
  have hm : magBits 0x7E800000#32 = 0x7E800000 := by decide
  have n1 : isNaN a = false := isNaN_of_magBits (by omega)
  have n2 : isNaN b = false := isNaN_of_magBits (by omega)
  have i1 : isInf a = false := by simp [isInf]; omega
  have i2 : isInf b = false := by simp [isInf]; omega
  simp only [add32, n1, n2, i1, i2, Bool.false_or, Bool.false_eq_true, if_false]
  unfold roundSigned; split
  · cases isNeg a && isNeg b <;> decide
  · rw [isFinite, decide_eq_true_eq, magBits_pack_round]
    have habs : (signedUnits a + signedUnits b).natAbs ≤ units 0x7E800000#32 := by
      have h1 : (signedUnits a).natAbs = units a := by unfold signedUnits; split <;> simp
      have h2 : (signedUnits b).natAbs = units b := by unfold signedUnits; split <;> simp
      have := Int.natAbs_add_le (signedUnits a) (signedUnits b)
      omega
    have := roundUnits_mono (den := 1) habs
    rw [roundUnits_units (by decide), hm] at this
    omega

/-- The slew control of a legal register file is finite (R171). -/
theorem slewKnob_finite (w : Slew) {l : Regs} (h : RegsLegal l) :
    isFinite (slewKnob w l) = true := by
  have hcv := slewCv_range w l
  have e1 : totalKey slewCvLimNeg = -0x3E800001 := by decide
  have e2 : totalKey slewCvLim = 0x3E800000 := by decide
  have hc : magBits (slewCv w l) ≤ 0x7E000000 := by
    have hk : totalKey (slewCv w l) =
      if isNeg (slewCv w l) then -(magBits (slewCv w l) : Int) - 1 else magBits (slewCv w l) := rfl
    split at hk <;> omega
  have hk : ∀ k : Knob, k = .attack ∨ k = .decay → magBits (l.knob k) ≤ 0x7E000000 := by
    intro k hk
    obtain ⟨-, h1, h2⟩ := h.knobs k
    have e3 : totalKey k.lo = 0 ∧ totalKey k.hi = 0x3E800000 := by rcases hk with rfl | rfl <;> decide
    have hk : totalKey (l.knob k) =
      if isNeg (l.knob k) then -(magBits (l.knob k) : Int) - 1 else magBits (l.knob k) := rfl
    split at hk <;> omega
  cases w
  · exact finite_add32 (hk .attack (.inl rfl)) hc
  · exact finite_add32 (hk .decay (.inr rfl)) hc

/-- SLEW_BASE lies strictly between 0 and 1 and is finite, as the laws of SLEW_POW ask (R172). -/
theorem slewBase_facts : slewBase = 0x360637BD#32 ∧ isFinite slewBase = true ∧
    lt32 0#32 slewBase = true ∧ lt32 slewBase 0x3F800000#32 = true := by
  have h : slewBase = 0x360637BD#32 := by decide
  rw [h]; decide

/-- The rate of a finite control has a clear sign bit (R172, law POWPOS). -/
theorem isNeg_slewRate {a : Word} (h : isFinite a = true) : isNeg (slewRate a) = false := by
  obtain ⟨-, h1, h2, -⟩ := slewBase_facts
  obtain ⟨-, hp⟩ := Config.params.powPos slewBase a h1 h2 h
  rw [lt32_iff] at hp
  have h0 : orderKey 0#32 = 0 := by decide
  exact isNeg_mul32 (by decide) (isNeg_of_orderKey_pos (by rw [← h0]; exact hp.2.2))

/-- A sample rate that passes FS_OK is finite, positive and above 12800.0 (R235). -/
theorem fsOk_pos {fs : Word} (h : fsOk fs = true) : isNeg fs = false ∧ isFinite fs = true := by
  have hb : mul32 two32 (f0 15) = 0x46480000#32 := by decide
  simp only [fsOk, hb, gt32, Bool.and_eq_true] at h
  obtain ⟨h1, h2⟩ := h
  rw [lt32_iff] at h2
  have : orderKey 0x46480000#32 = 0x46480000 := by decide
  exact ⟨isNeg_of_orderKey_pos (by omega), h1⟩

end Sys2Proof.Machine
end

