-- ==== Sys2Proof/Laws/Fields.lean ====
section
/-!
SUPPORT. The fields of the packed words: the transaction pattern (30_encoding.md), the aligned offsets
(R75), the STATUS word (R33), and that each register is found at its own offset (R31).
-/

namespace Sys2Proof

theorem getLsbD_makePattern (we : Bool) (be : ByteEnables) (addr : Offset) (n : Nat) :
    (makePattern we be addr).getLsbD n =
      if n < 9 then addr.getLsbD n
      else if n - 9 < 4 then be.getLsbD (n - 9) else (BitVec.ofBool we).getLsbD (n - 9 - 4) := by
  show BitVec.getLsbD (w := 1 + 4 + 9) (BitVec.ofBool we ++ be ++ addr) n = _
  rw [BitVec.getLsbD_append, BitVec.getLsbD_append]

@[simp] theorem patternWe_makePattern (we : Bool) (be : ByteEnables) (addr : Offset) :
    patternWe (makePattern we be addr) = we := by
  simp [patternWe, getLsbD_makePattern, -BitVec.getLsbD_eq_getElem]

@[simp] theorem patternBe_makePattern (we : Bool) (be : ByteEnables) (addr : Offset) :
    patternBe (makePattern we be addr) = be := by
  apply BitVec.eq_of_getLsbD_eq; intro i hi
  simp [patternBe, getLsbD_makePattern, hi, -BitVec.getLsbD_eq_getElem]

@[simp] theorem patternAddr_makePattern (we : Bool) (be : ByteEnables) (addr : Offset) :
    patternAddr (makePattern we be addr) = addr := by
  apply BitVec.eq_of_getLsbD_eq; intro i hi
  simp [patternAddr, getLsbD_makePattern, hi, -BitVec.getLsbD_eq_getElem]

/-- A pattern is made of its three fields. -/
theorem makePattern_fields (p : BitVec 14) :
    makePattern (patternWe p) (patternBe p) (patternAddr p) = p := by
  apply BitVec.eq_of_getLsbD_eq; intro i hi
  rw [getLsbD_makePattern]
  simp only [patternAddr, patternBe, patternWe, BitVec.getLsbD_extractLsb', BitVec.getLsbD_ofBool]
  interval_cases i <;> simp

/-- The aligned offsets are the multiples of four (R75). -/
theorem alignedOffset_iff (off : Offset) : alignedOffset off = true ↔ off.toNat % 4 = 0 := by
  simp only [alignedOffset, beq_iff_eq]
  constructor
  · intro h; simpa [BitVec.extractLsb'_toNat] using congrArg BitVec.toNat h
  · intro h; apply BitVec.eq_of_toNat_eq; simpa [BitVec.extractLsb'_toNat] using h

/-- An aligned offset is four times one of the 128 word offsets. -/
theorem alignedOffset_word {off : Offset} (h : alignedOffset off = true) :
    ∃ n, n < 128 ∧ off = BitVec.ofNat 9 (4 * n) := by
  have := (alignedOffset_iff off).1 h
  exact ⟨off.toNat / 4, by omega, by apply BitVec.eq_of_toNat_eq; simp; omega⟩

namespace Machine

theorem busyFlag_iff (s : State) : busyFlag s = true ↔ s.seq ≠ .idle := by
  unfold busyFlag; cases s.seq <;> simp

/-- Every bit of the STATUS word (R33). -/
theorem getLsbD_statusWord (s : State) (n : Nat) :
    (statusWord s).getLsbD n =
      if n = 0 then busyFlag s else if n = 1 then s.configured
      else if 8 ≤ n then (if n < 13 then s.err.getLsbD (n - 8) else false) else false := by
  show BitVec.getLsbD (w := 19 + 5 + 6 + 1 + 1)
    (0#19 ++ s.err ++ 0#6 ++ BitVec.ofBool (configuredFlag s) ++ BitVec.ofBool (busyFlag s)) n = _
  simp only [BitVec.getLsbD_append, BitVec.getLsbD_ofBool, BitVec.getLsbD_zero, configuredFlag]
  by_cases h : n < 13
  · interval_cases n <;> simp
  · rw [if_neg (by omega), if_neg (by omega), if_neg (by omega), if_neg (by omega), if_neg (by omega),
      if_neg (by omega), if_pos (by omega), if_neg h]

/-- Every register is found at its own offset, which is aligned (R31). -/
theorem regAt_offset (r : Reg) : alignedOffset r.offset = true ∧ regAt r.offset = some r := by
  cases r with
  | knob k => cases k <;> decide
  | input j => cases j <;> decide
  | bandGain i => fin_cases i <;> decide
  | insertIn i => fin_cases i <;> decide
  | envOut i => fin_cases i <;> decide
  | peak i => fin_cases i <;> decide
  | env i => fin_cases i <;> decide
  | _ => decide

theorem accessFormOk_of_aligned {off : Offset} (h : alignedOffset off = true) :
    accessFormOk 0b1111#4 off = true := by
  simp [accessFormOk, h]

/-- A write to a register's own offset is the write of that register (R73). -/
theorem execWr_offset (r : Reg) (w : Word) (s : State) :
    execWr r.offset w s = writeReg r w s := by
  simp [execWr, memWrite, accessFormOk_of_aligned (regAt_offset r).1, (regAt_offset r).2]

/-- A read of a register's own offset returns its value (R72). -/
theorem execRd_offset (r : Reg) (s : State) :
    execRd r.offset s = .next (returnData (regValue s r) s) := by
  simp [execRd, memRead, accessFormOk_of_aligned (regAt_offset r).1, (regAt_offset r).2]

end Machine

end Sys2Proof
end

