-- ==== Sys2Proof/Laws/PerInstr.lean ====
section
/-!
SUPPORT. The family of statements made per instruction: each well-formed instruction has a word in the
opcode table's own bit numbering, with the bits its row fixes, that numbers its encoding.
-/

namespace Sys2Proof.Laws.Encoding

open Sys2Proof Sys2Proof.Machine

/-- The bits that an instruction's row of spec/opcode_table.json fixes, in the row's numbering. -/
def RowBits : Instr → Nat → Nat → Prop
  | .nop, nbits, w => nbits = 32 ∧ w = 0
  | .step, nbits, w => nbits = 32 ∧ w = 1
  | .reset, nbits, w => nbits = 32 ∧ w = 2
  | .configure, nbits, w => nbits = 32 ∧ w = 3
  | .rd off, nbits, w => nbits = 16 ∧ w < 2 ^ 14 ∧ w / 512 = 0b01111 ∧ w % 4 = 0 ∧ w % 512 = off.toNat
  | .wr off v, nbits, w =>
    nbits = 48 ∧ w / 2 ^ 16 = v.toNat ∧ w % 2 ^ 16 / 512 = 0b11111 ∧ w % 4 = 0 ∧ w % 512 = off.toNat

def Statement (i : Instr) : Prop :=
  i.wf = true → ∃ nbits w, RowBits i nbits w ∧ encodedOfTableWord nbits w = some (encode i)

theorem nop : Statement .nop := fun _ => ⟨32, 0, ⟨rfl, rfl⟩, by decide⟩

theorem step : Statement .step := fun _ => ⟨32, 1, ⟨rfl, rfl⟩, by decide⟩

theorem reset : Statement .reset := fun _ => ⟨32, 2, ⟨rfl, rfl⟩, by decide⟩

theorem configure : Statement .configure := fun _ => ⟨32, 3, ⟨rfl, rfl⟩, by decide⟩

/-- The pattern of a transaction as a number (30_encoding.md: `we` is its most significant bit). -/
theorem toNat_makePattern (we : Bool) (off : Offset) :
    (makePattern we 0b1111#4 off).toNat = (if we then 0b11111 else 0b01111) * 512 + off.toNat := by
  have h := off.isLt
  have key : ∀ b : BitVec 5, (b ++ off).toNat = b.toNat * 512 + off.toNat := by
    intro b
    rw [BitVec.toNat_append, ← Nat.shiftLeft_add_eq_or_of_lt h, Nat.shiftLeft_eq]
  cases we
  · exact key 0b01111#5
  · exact key 0b11111#5

theorem offset_mod_four {off : Offset} (h : alignedOffset off = true) : off.toNat % 4 = 0 := by
  simp only [alignedOffset, beq_iff_eq] at h
  have := congrArg BitVec.toNat h
  simpa [BitVec.extractLsb'_toNat] using this

theorem rd (off : Offset) : Statement (.rd off) := by
  intro h
  have hlt := off.isLt
  have h4 := offset_mod_four h
  have hp := toNat_makePattern false off
  have he : encodedOfTableWord 16 (makePattern false 0b1111#4 off).toNat = some (encode (.rd off)) := by
    have h1 : (makePattern false 0b1111#4 off).toNat % 65536 = (makePattern false 0b1111#4 off).toNat :=
      by rw [hp]; simp; omega
    have h2 : (makePattern false 0b1111#4 off).toNat / 65536 = 0 := by rw [hp]; simp; omega
    have h3 : (makePattern false 0b1111#4 off).toNat < 16384 := by rw [hp]; simp; omega
    simp [encodedOfTableWord, h1, h2, h3, encode]; omega
  refine ⟨16, (makePattern false 0b1111#4 off).toNat, ⟨rfl, ?_, ?_, ?_, ?_⟩, he⟩
  · rw [hp]; simp; omega
  · rw [hp]; simp; omega
  · rw [hp]; simp; omega
  · rw [hp]; simp; omega

theorem wr (off : Offset) (v : Word) : Statement (.wr off v) := by
  intro h
  have hlt := off.isLt
  have hv := v.isLt
  have h4 := offset_mod_four h
  have hp := toNat_makePattern true off
  obtain ⟨w, hw⟩ : ∃ w, w = v.toNat * 65536 + (makePattern true 0b1111#4 off).toNat := ⟨_, rfl⟩
  have h1 : w % 65536 = (makePattern true 0b1111#4 off).toNat := by rw [hw, hp]; simp; omega
  have h2 : w / 65536 = v.toNat := by rw [hw, hp]; simp; omega
  have h3 : w % 65536 < 16384 := by rw [h1, hp]; simp; omega
  have h5 : w < 2 ^ 48 := by rw [hw, hp]; simp; omega
  have he : encodedOfTableWord 48 w = some (encode (.wr off v)) := by
    simp [encodedOfTableWord, h2, encode, h1]; omega
  refine ⟨48, w, ⟨rfl, h2, ?_, ?_, ?_⟩, he⟩
  · rw [show (2 : Nat) ^ 16 = 65536 by norm_num, h1, hp]; simp; omega
  · rw [hw, hp]; simp; omega
  · rw [hw, hp]; simp; omega

end Sys2Proof.Laws.Encoding
end

