-- ==== Sys2Proof/Laws/Port.lean ====
section
/-!
SUPPORT. One spec lemma for each kind of access the port can see, and one for a run of several cycles.
-/

namespace Sys2Proof.Machine

/-- A write to CMD of the legal form carries a command word. -/
theorem fetchForm_command {p : Pins} (hw : p.we = true) (hb : p.be = 0b1111#4)
    (h4 : p.addr = 0x004#9) : fetchForm p = .command p.wdata := by
  simp [fetchForm, hw, hb, h4, Reg.offset]

/-- Every other access carries its pattern. -/
theorem fetchForm_transaction {p : Pins}
    (h : ¬(p.we = true ∧ p.be = 0b1111#4 ∧ p.addr = 0x004#9)) :
    fetchForm p = .transaction (makePattern p.we p.be p.addr) p.wdata := by
  unfold fetchForm; rw [if_neg]; simpa [Reg.offset] using h

/-- A malformed access is an access error (R75, R78, R267). -/
theorem access_malformed {p : Pins} (s : State) (hr : p.req = true)
    (h : p.be ≠ 0b1111#4 ∨ alignedOffset p.addr = false) :
    access p s = .next (if p.we then busErrorWrite s else busErrorRead s) := by
  rw [access, if_pos hr, fetchForm_transaction]
  · simp only [decode, decodeTransaction, patternBe_makePattern, patternAddr_makePattern]
    by_cases hbe : p.be = 0b1111#4
    · simp [hbe, h.resolve_left (by simp [hbe]), rejected]
    · simp [hbe, rejected]
  · rintro ⟨-, h1, h2⟩
    rcases h with h | h
    · exact h h1
    · rw [h2] at h; exact absurd h (by decide)

/-- A read of the legal form is RD (R72). -/
theorem access_read {p : Pins} (s : State) (hr : p.req = true) (hw : p.we = false)
    (hb : p.be = 0b1111#4) (ha : alignedOffset p.addr = true) : access p s = execRd p.addr s := by
  rw [access, if_pos hr, fetchForm_transaction (by simp [hw])]
  simp [decode, decodeTransaction, hb, ha, hw, exec]

/-- A write of the legal form, but not to CMD, is WR (R73). -/
theorem access_write {p : Pins} (s : State) (hr : p.req = true) (hw : p.we = true)
    (hb : p.be = 0b1111#4) (ha : alignedOffset p.addr = true) (h4 : p.addr ≠ 0x004#9) :
    access p s = execWr p.addr p.wdata s := by
  rw [access, if_pos hr, fetchForm_transaction (by simp [h4])]
  simp [decode, decodeTransaction, hb, ha, hw, exec]

/-- A write of the legal form to CMD is Command(w) (R230). -/
theorem access_command {p : Pins} (s : State) (hr : p.req = true) (hw : p.we = true)
    (hb : p.be = 0b1111#4) (h4 : p.addr = 0x004#9) : access p s = command p.wdata s := by
  rw [access, if_pos hr, fetchForm_command hw hb h4]
  simp only [decode, command]
  generalize hd : decodeCommand p.wdata = d
  cases d with
  | error r => unfold decodeCommand at hd; split_ifs at hd; cases hd; rfl
  | ok i => unfold decodeCommand at hd; split_ifs at hd <;> cases hd <;> rfl

theorem runFor_succ {k : Nat} {s t : State} (h : step s = .next t) :
    runFor (k + 1) s = runFor k t := by
  rw [runFor, h]

/-- `runFor` is the host's run of the core. -/
theorem runFor_eq_run (k : Nat) (s : State) : runFor k s = Host.Core.run core k s := by
  induction k generalizing s with
  | zero => rfl
  | succ k ih =>
    have hrun := Host.Core.run.eq_2 core s k
    have hstep : core.step s = step s := rfl
    cases h : step s with
    | next t => rw [runFor_succ h, ih t, hrun, hstep, h]
    | fault r => rw [runFor, h, hrun, hstep, h]; rfl
    | refused r => rw [runFor, h, hrun, hstep, h]; rfl

end Sys2Proof.Machine
end

