-- ==== Sys2Proof/Laws/Registers.lean ====
section
/-!
SUPPORT. What a write leaves in the register file: each named register reads back, and legal contents stay
legal whatever word is written (R42, R43).
-/

namespace Sys2Proof.Machine

theorem knob_setKnob (r : Regs) (k j : Knob) (v : Word) :
    (r.setKnob k v).knob j = if j = k then v else r.knob j := by
  cases k <;> cases j <;> rfl

theorem input_setInput (r : Regs) (k j : Input) (v : Word) :
    (r.setInput k v).input j = if j = k then v else r.input j := by
  cases k <;> cases j <;> rfl

/-- What a write stores in a knob lies in its range (R42). -/
theorem legalKnob_range (k : Knob) (w : Word) : inRange k.lo k.hi (legalKnob k w) := by
  cases k <;> exact clamp32_spec w (by decide) (by decide) (by decide)

theorem legalBandGain_range (w : Word) : inRange bandGainLo bandGainHi (legalBandGain w) :=
  clamp32_spec w (by decide) (by decide) (by decide)

/-- The reserved bits of CONNECT stay 0 (R37, R43). -/
theorem legalConnect_lt (w : Word) : (legalConnect w).toNat < 8388608 := by
  have := (w.extractLsb' 0 23).isLt
  simp only [legalConnect, BitVec.toNat_setWidth]; omega

/-- Every store keeps the register file legal (R42, R43). -/
theorem storeReg_legal (r : Regs) (reg : Reg) (w : Word) (h : RegsLegal r) :
    RegsLegal (storeReg r reg w) := by
  have hk := h.knobs
  cases reg with
  | sampleRate => exact ⟨fun k => by have := hk k; cases k <;> exact this, h.bandGains, h.connect⟩
  | connect =>
    exact ⟨fun k => by have := hk k; cases k <;> exact this, h.bandGains, legalConnect_lt w⟩
  | knob k =>
    refine ⟨fun j => ?_, by cases k <;> exact h.bandGains, by cases k <;> exact h.connect⟩
    simp only [storeReg, knob_setKnob]
    split
    · rename_i hj; subst hj; exact legalKnob_range _ w
    · exact hk j
  | bandGain i =>
    refine ⟨fun k => by have := hk k; cases k <;> exact this, fun j => ?_, h.connect⟩
    simp only [storeReg, Lanes.get_set]
    split
    · exact legalBandGain_range w
    · exact h.bandGains j
  | input j =>
    exact ⟨fun k => by have := hk k; cases j <;> cases k <;> exact this,
      by cases j <;> exact h.bandGains, by cases j <;> exact h.connect⟩
  | insertIn i => exact ⟨fun k => by have := hk k; cases k <;> exact this, h.bandGains, h.connect⟩
  | _ => exact h

end Sys2Proof.Machine
end

