-- ==== Sys2Proof/Tests/Slice0.lean ====
section
/-!
SUPPORT. Small tests of the model, each with its expected value from a rule or a vector of spec/ (named in
its comment), and a witness for every obligation that has hypotheses.
-/

namespace Sys2Proof.Machine

/-- The answer is the given next state. -/
def gives (a : Answer) (t : State) : Bool :=
  match a with
  | .next u => u == t
  | .fault _ => false
  | .refused _ => false

/-! ## Well-formedness and decoding -/

/-- A misaligned offset is ill formed (R75), an unmapped one is not (R77). -/
theorem test_wf_refuses :
    (Instr.rd 0x002#9).wf = false ∧ (Instr.wr 0x022#9 0).wf = false ∧
      (Instr.rd 0x1FF#9).wf = false ∧ (Instr.rd 0x014#9).wf = true ∧ Instr.nop.wf = true := by
  decide

/-- The four words of R103, and illegal neighbours of R104. -/
theorem test_decode_commands :
    decode (.command 0b00000000000000000000000000000000#32) = .ok .nop ∧
      decode (.command 0b00000000000000000000000000000001#32) = .ok .step ∧
      decode (.command 0b00000000000000000000000000000010#32) = .ok .reset ∧
      decode (.command 0b00000000000000000000000000000011#32) = .ok .configure ∧
      decode (.command 0x00000004#32) = .error (.illegalCommand 0x00000004#32) ∧
      decode (.command 0x80000001#32) = .error (.illegalCommand 0x80000001#32) := by
  decide

/-- Rows RD and WR, {we, be[3:0], addr[8:0]}: a read of ENV[15], a write of CONNECT, and refusals. -/
theorem test_decode_transactions :
    decode (.transaction 0b01111111111100#14 0) = .ok (.rd 0x1FC#9) ∧
      decode (.transaction 0b11111000010000#14 0x00020400#32) = .ok (.wr 0x010#9 0x00020400#32) ∧
      decode (.transaction 0b10011000100000#14 7) = .error (.partialAccess 0b0011#4) ∧
      decode (.transaction 0b11111000100010#14 7) = .error (.misaligned 0x022#9) := by
  decide

/-- A table word presented at reset is the first thing the core runs: STEP is refused (vector C1). -/
theorem test_fetch_step :
    gives (step (State.reset.withFetchWord 32 1)) { State.reset with err := 0b01000#5 } := by
  decide

/-- RD of 0x000 presented at reset returns ID (vector A1). -/
theorem test_fetch_rd :
    gives (step (State.reset.withFetchWord 16 0b01111000000000))
      { State.reset with rdata := some 0x00012210#32 } := by
  decide

/-! ## Primitives (95_test_vectors.md section 2.1) -/

/-- Vectors N1 to N4. -/
theorem test_clamp :
    clamp32 0x7FC00000#32 0x3F800000#32 0x41700000#32 = 0x3F800000#32 ∧
      clamp32 0x80000000#32 0x00000000#32 0x40000000#32 = 0x00000000#32 ∧
      clamp32 0x80000000#32 0xC1780000#32 0x41780000#32 = 0x80000000#32 ∧
      clamp32 0x7F800000#32 0x3F800000#32 0x41200000#32 = 0x41200000#32 := by
  decide

/-- Vectors N5 to N9; 3.0e9 is 0x4F32D05E. -/
theorem test_integers :
    truncSat 0x406CCCCD#32 = 3 ∧ truncSat 0xBF666666#32 = 0 ∧ truncSat 0x7FC00000#32 = 0 ∧
      truncSat 0x7F800000#32 = 2147483647 ∧ truncSat 0xFF800000#32 = -2147483648 ∧
      truncSat 0x4F32D05E#32 = 2147483647 ∧ mod16 (-15) = 1 ∧ mod16 30 = 14 ∧ mod16 16 = 0 := by
  decide

/-- Vectors N10 to N13. -/
theorem test_arithmetic :
    abs32 0x80000000#32 = 0x00000000#32 ∧ abs32 0xFFC00000#32 = 0x7FC00000#32 ∧
      div32 0x41100000#32 0x40A00000#32 = 0x3FE66666#32 ∧
      mul32 0x41100000#32 0x3E4CCCCD#32 = 0x3FE66667#32 ∧
      div32 0x41500000#32 0x40A00000#32 = 0x40266666#32 ∧
      mul32 0x41500000#32 0x3E4CCCCD#32 = 0x40266667#32 ∧ slewBase = 0x360637BD#32 := by
  decide

/-- IEEE-754 corners of R16 and R17: a subnormal result is kept, an overflow is infinite, the sign of
an exact zero sum, and the one NaN. -/
theorem test_ieee_corners :
    mul32 0x00800000#32 0x3F000000#32 = 0x00400000#32 ∧
      mul32 0x7F000000#32 0x40000000#32 = 0x7F800000#32 ∧
      add32 0x3F800000#32 0xBF800000#32 = 0x00000000#32 ∧
      add32 0x80000000#32 0x80000000#32 = 0x80000000#32 ∧
      sub32 0x7F800000#32 0x7F800000#32 = 0x7FC00000#32 ∧
      mul32 0x00000000#32 0xFF800000#32 = 0x7FC00000#32 ∧
      div32 0x3F800000#32 0x80000000#32 = 0xFF800000#32 := by
  decide

/-! ## Datapath units (sections 2.2 to 2.6) -/

/-- The coefficients of section 2.2. -/
def sampleCoef : Coef := ⟨0x3E800000#32, 0x00000000#32, 0xBE800000#32, 0xBF000000#32, 0x3E800000#32⟩

/-- Vector B1, calls 2 and 6. -/
theorem test_biquad :
    bqProcess sampleCoef ⟨0x3F800000#32, 0, 0x3E800000#32, 0⟩ 0 =
        (0x3E000000#32, ⟨0, 0x3F800000#32, 0x3E000000#32, 0x3E800000#32⟩) ∧
      bqProcess sampleCoef ⟨0, 0, 0xBC800000#32, 0xBE200000#32⟩ 0x40000000#32 =
        (0x3F080000#32, ⟨0x40000000#32, 0, 0x3F080000#32, 0xBC800000#32⟩) := by
  decide

/-- Vectors B2, B3 and B4. -/
theorem test_biquad_corners :
    (bqProcess sampleCoef Hist.zero 0x7FC00000#32).1 = 0x7FC00000#32 ∧
      (bqProcess sampleCoef ⟨0x7F800000#32, 0, 0, 0⟩ 0).1 = 0x7FC00000#32 ∧
      (bqProcess sampleCoef Hist.zero 0x80000000#32).1 = 0x00000000#32 := by
  decide

/-- Vector Q13. -/
theorem test_cascade :
    (cascade ⟨sampleCoef, sampleCoef⟩ ⟨Hist.zero, Hist.zero⟩ 0x3F800000#32).1 = 0x3D800000#32 := by
  decide

/-- Vectors Q1 to Q5 and Q9. -/
theorem test_hysteresis :
    qHystTest 0x3F800000#32 0x3F866666#32 = false ∧ qHystTest 0x3F800000#32 0x3F8CCCCD#32 = true ∧
      qHystTest 0x40A00000#32 0x40A33333#32 = false ∧ qHystTest 0x40A00000#32 0x409CCCCD#32 = false ∧
      qHystTest 0x416E6666#32 0x41700000#32 = true ∧ qHystTest 0x41200000#32 0x4121999A#32 = true := by
  decide

/-- Vectors E1, E2, E5 and E6, at fs = 51200.0 and rate 500.0. -/
theorem test_envelope :
    envAttack 0 0x3F800000#32 0x43FA0000#32 0x47480000#32 = 0x3A800000#32 ∧
      envDecay 0x3F800000#32 0 0x43FA0000#32 0x47480000#32 = 0x3F7FC000#32 ∧
      envAttack 0 0x7F800000#32 0x43FA0000#32 0x47480000#32 = 0x7F800000#32 ∧
      envDecay 0x7F800000#32 0x3F800000#32 0x43FA0000#32 0x47480000#32 = 0x3F800000#32 := by
  decide

/-- Vectors E3, E7, E8 and E10: the branch taken, at fs = 48000.0. -/
theorem test_envelope_branch :
    envNext 0 0x3F800000#32 0x43FA0000#32 0x3A83126F#32 0x473B8000#32 = 0x3A888889#32 ∧
      envNext 0x3F000000#32 0x3F000000#32 0x43FA0000#32 0x43FA0000#32 0x473B8000#32 = 0x3F000000#32 ∧
      envNext 0x3F000000#32 0x7FC00000#32 0x43FA0000#32 0x43FA0000#32 0x473B8000#32 = 0x3F000000#32 ∧
      envOutOf 0x3A800000#32 = 0x3BA00000#32 := by
  decide

/-- Registers with the given band-offset knob, and its control voltage connected where one is given. -/
def bofsRegs (knob : Word) (cv : Option Word) : Regs :=
  match cv with
  | none => { Regs.reset with bofsKnob := knob }
  | some v => { Regs.reset with bofsKnob := knob, bofsCv := v, connect := 0x00400000#32 }

/-- Vectors O2, O4 to O8. -/
theorem test_band_offset :
    bofsWrap (bofsRaw (bofsRegs 0x406CCCCD#32 (some 0xBF000000#32))) = 2 ∧
      bofsWrap (bofsRaw (bofsRegs 0x41780000#32 none)) = 15 ∧
      bofsWrap (bofsRaw (bofsRegs 0xC1780000#32 (some 0xBF800000#32))) = 15 ∧
      bofsWrap (bofsRaw (bofsRegs 0x41780000#32 (some 0x3F800000#32))) = -15 ∧
      bofsWrap (bofsRaw (bofsRegs 0 (some 0x42200000#32))) = -15 ∧
      bofsWrap (bofsRaw (bofsRegs 0x406CCCCD#32 (some 0x42200000#32))) = -15 := by
  decide

/-- Vectors O9 to O11. -/
theorem test_band_offset_corners :
    bofsWrap (bofsRaw (bofsRegs 0 (some 0x7FC00000#32))) = 0 ∧
      bofsWrap (bofsRaw (bofsRegs 0x40A00000#32 (some 0x7F800000#32))) = -15 ∧
      bofsWrap (bofsRaw (bofsRegs 0x40A00000#32 (some 0xFF800000#32))) = 15 := by
  decide

/-- A state with offset 3, insert 5 connected at 2.5 V, and a different envelope in every band. -/
def routeState : State :=
  { State.reset with
    bandOffset := 3
    snap := { Regs.reset with
      connect := 0x00000020#32, insertIn := (Lanes.fill 0).set 5 0x40200000#32 }
    env := Lanes.ofFn fun i => BitVec.ofNat 32 (100 + i.val) }

/-- Vectors T1, T2 and T4. -/
theorem test_route :
    rot routeState 0 = 3 ∧ rot routeState 13 = 0 ∧ route routeState 2 = 0x3F000000#32 ∧
      route routeState 13 = 100#32 ∧ route routeState 3 = 106#32 := by
  decide

set_option maxRecDepth 8000 in
/-- Vectors G7 and G10: the sum is a running sum, and the output scale. -/
theorem test_sum :
    sumTerms (((Lanes.fill 0).set 0 0x3F800000#32).set 1 0x4B800000#32 |>.set 2 0xCB800000#32) =
        0x00000000#32 ∧
      outScale 0x3F000000#32 0x3F800000#32 = 0x40200000#32 := by
  decide

/-! ## Register accesses (sections 2.7 and 2.9) -/

/-- Vectors W1, W6 and W8. -/
theorem test_wr_stores :
    gives (execWr 0x028#9 0x41A00000#32 State.reset)
        { State.reset with regs := { Regs.reset with carqKnob := 0x41700000#32 } } ∧
      gives (execWr 0x030#9 0x41800000#32 State.reset)
        { State.reset with regs := { Regs.reset with bofsKnob := 0x41780000#32 } } ∧
      gives (execWr 0x010#9 0xFFFFFFFF#32 State.reset)
        { State.reset with regs := { Regs.reset with connect := 0x007FFFFF#32 } } := by
  decide

/-- Vectors A3 and C16. -/
theorem test_wr_errors :
    gives (execWr 0x000#9 1 State.reset)
        { State.reset with err := 0b10000#5 } ∧
      gives (execWr 0x008#9 0x00000800#32 { State.reset with err := 0b11101#5 })
        { State.reset with err := 0b10101#5 } := by
  decide

/-- Vector A13 on a state of the test's own, and A5. -/
theorem test_rd :
    gives (execRd 0x1FC#9 routeState)
        { routeState with rdata := some 115#32 } ∧
      gives (execRd 0x014#9 State.reset)
        { State.reset with rdata := some 0#32, err := 0b10000#5 } := by
  decide

/-- Vectors A10 and A11: partial accesses. -/
theorem test_partial_access :
    gives (access ⟨true, true, true, 0x020#9, 0b0011#4, 0x3E000000#32⟩ State.reset)
        { State.reset with err := 0b10000#5 } ∧
      gives (access ⟨true, true, false, 0x008#9, 0b0000#4, 0⟩ State.reset)
        { State.reset with rdata := some 0#32, err := 0b10000#5 } := by
  decide

/-! ## Commands (section 2.8) -/

/-- A core with a CONFIGURE pending, two cycles from its completion. -/
def busyState : State := { State.reset with seq := .busy .configure 2 }

/-- The STATUS word an answer leaves, none where it is no next state. -/
def statusAfter (a : Answer) : Option Word :=
  match a with
  | .next t => some (statusWord t)
  | .fault _ => none
  | .refused _ => none

/-- Vectors C8 and C11: NOP while busy, and an illegal word while busy. -/
theorem test_nop :
    gives (execNop busyState)
        busyState ∧
      statusAfter (execWr 0x004#9 7 busyState) = some 0x00000101#32 := by
  decide

/-- Vectors C1 and C12. -/
theorem test_step_refused :
    statusAfter (execStep State.reset) = some 0x00000800#32 ∧
      statusAfter (execStep busyState) = some 0x00000201#32 := by
  decide

/-- Vectors C14 and C9. -/
theorem test_reset :
    gives (execReset routeState)
        { routeState with bandOffset := 0 } ∧
      statusAfter (execReset busyState) = some 0x00000201#32 := by
  decide

/-- The reset state with the given staged sample rate. -/
def withRate (fs : Word) : State := { State.reset with regs := { Regs.reset with sampleRate := fs } }

/-- Vectors C2 to C4. -/
theorem test_configure :
    statusAfter (execConfigure State.reset) = some 0x00000400#32 ∧
      statusAfter (execConfigure (withRate 0x46480000#32)) = some 0x00000400#32 ∧
      statusAfter (execConfigure (withRate 0x46480001#32)) = some 0x00000001#32 := by
  decide

/-- Vector C5. -/
theorem test_configure_unusable :
    fsOk 0x7FC00000#32 = false ∧ fsOk 0x7F800000#32 = false ∧ fsOk 0xC73B8000#32 = false ∧
      fsOk 0x80000000#32 = false ∧ fsOk 0x473B8000#32 = true := by
  decide

/-! ## Witnesses: for each obligation with hypotheses, a state and operands that meet them all -/

theorem witness_DecodeOfEncode :
    (Instr.rd 0x000#9).wf = true ∧ (Instr.rd 0x1FC#9).wf = true ∧
      (Instr.wr 0x1FC#9 0xFFFFFFFF#32).wf = true ∧ Instr.configure.wf = true := by
  decide

theorem witness_EncodeOfDecode :
    decode (.command 3#32) = .ok .configure ∧
      decode (.transaction 0b01111000001000#14 5#32) = .ok (.rd 0x008#9) := by
  decide

/-- The pins of a well-formed write of `w` to CMD. -/
def cmdPins (w : Word) : Pins := pinsOf (.command w)

theorem witness_IllegalCommandWords :
    3 < (4#32).toNat ∧ 3 < (0xFFFFFFFF#32).toNat ∧ (cmdPins 4#32).req = true ∧
      (cmdPins 4#32).we = true ∧ (cmdPins 4#32).be = 0b1111#4 ∧ (cmdPins 4#32).addr = 0x004#9 ∧
      (cmdPins 4#32).wdata = 4#32 := by
  decide

/-- The first and the last register of every block of R31. -/
theorem witness_RegisterMap :
    regAt 0x000#9 = some .id ∧ regAt 0x010#9 = some .connect ∧ regAt 0x020#9 = some (.knob .attack) ∧
      regAt 0x03C#9 = some (.knob .outGain) ∧ regAt 0x040#9 = some (.bandGain 0) ∧
      regAt 0x07C#9 = some (.bandGain 15) ∧ regAt 0x0C0#9 = some (.insertIn 0) ∧
      regAt 0x0FC#9 = some (.insertIn 15) ∧ regAt 0x140#9 = some (.envOut 0) ∧
      regAt 0x1FC#9 = some (.env 15) ∧ alignedOffset 0x1FC#9 = true := by
  decide

/-- The unmapped ranges of R77 at their ends, and the registers beside them. -/
theorem witness_UnmappedOffsets :
    regAt 0x014#9 = none ∧ regAt 0x01C#9 = none ∧ regAt 0x09C#9 = none ∧ regAt 0x0BC#9 = none ∧
      regAt 0x114#9 = none ∧ regAt 0x13C#9 = none ∧ alignedOffset 0x0BC#9 = true ∧
      regAt 0x098#9 = some (.input .bofsCv) ∧ regAt 0x110#9 = some .fsApplied := by
  decide

theorem witness_ReadReturnsRegister :
    alignedOffset 0x004#9 = true ∧ regAt 0x004#9 = some .cmd ∧ alignedOffset 0x180#9 = true ∧
      regAt 0x180#9 = some (.peak 0) := by
  decide

theorem witness_KnobWritesAreLegalised :
    inRange Knob.carq.lo Knob.carq.hi 0x3F800000#32 ∧ inRange Knob.carq.lo Knob.carq.hi 0x41700000#32 ∧
      inRange Knob.bofs.lo Knob.bofs.hi 0xC1780000#32 ∧ isNaN 0x7FC00000#32 = true ∧
      inRange 0x00000000#32 0x40000000#32 0x40000000#32 := by
  unfold inRange; decide

/-- The last read-only register of R76. -/
theorem witness_ReadOnlyWritesAreErrors :
    Reg.env 15 = .id ∨ Reg.env 15 = .out ∨ Reg.env 15 = .bandOffset ∨ Reg.env 15 = .modqApplied ∨
      Reg.env 15 = .carqApplied ∨ Reg.env 15 = .fsApplied ∨
      ∃ i, Reg.env 15 = .envOut i ∨ Reg.env 15 = .peak i ∨ Reg.env 15 = .env i := by
  decide

/-- A write with two byte lanes, and a read with none. -/
theorem witness_PartialAccessIsError :
    (⟨true, true, true, 0x020#9, 0b0011#4, 0⟩ : Pins).be ≠ 0b1111#4 ∧
      (⟨true, true, false, 0x008#9, 0b0000#4, 0⟩ : Pins).be ≠ 0b1111#4 ∧
      (⟨true, true, true, 0x020#9, 0b0011#4, 0⟩ : Pins).req = true := by
  decide

theorem witness_MisalignedAccessIsError :
    (⟨true, true, true, 0x022#9, 0b1111#4, 0⟩ : Pins).req = true ∧ alignedOffset 0x022#9 = false ∧
      alignedOffset 0x1FF#9 = false := by
  decide

theorem witness_CmdWriteRunsCommand : ∃ i : Instr, i = .configure := ⟨_, rfl⟩

theorem witness_TransactionFrame :
    (∃ t, exec (.rd 0x100#9) State.reset = .next t) ∧ alignedOffset 0x100#9 = true ∧
      regAt 0x100#9 ≠ none ∧ (∃ t, exec (.wr 0x1FC#9 1#32) State.reset = .next t) ∧
      0x1FC#9 ≠ 0x004#9 ∧ (Reg.knob .attack).offset ≠ 0x1FC#9 ∧ Reg.knob .attack ≠ .status :=
  ⟨⟨_, rfl⟩, by decide, by decide, ⟨_, rfl⟩, by decide, by decide, by decide⟩

theorem witness_ReadAfterWrite :
    (Reg.knob .bofs).isStored = true ∧ (Reg.bandGain 15).isStored = true ∧
      Reg.connect.isStored = true ∧ (Reg.insertIn 0).isStored = true := by
  decide

/-- An idle core on which a CONFIGURE has completed. -/
def configuredState : State := { State.reset with configured := true, fs := 0x473B8000#32 }

theorem witness_StepIsAccepted : configuredState.seq = .idle ∧ configuredState.configured = true := by
  decide

theorem witness_StepIsRefused :
    busyState.seq ≠ .idle ∧ State.reset.seq = .idle ∧ State.reset.configured = false := by
  decide

theorem witness_ResetClearsBandOffset : routeState.seq = .idle ∧ busyState.seq ≠ .idle := by
  decide

/-- The smallest and the largest usable sample rate. -/
theorem witness_ConfigureIsAccepted :
    (withRate 0x46480001#32).seq = .idle ∧
      0x46480000 < (withRate 0x46480001#32).regs.sampleRate.toNat ∧
      (withRate 0x46480001#32).regs.sampleRate.toNat < 0x7F800000 ∧
      (withRate 0x7F7FFFFF#32).regs.sampleRate.toNat < 0x7F800000 := by
  decide

/-- The values just outside them. -/
theorem witness_ConfigureIsRefused :
    busyState.seq ≠ .idle ∧ (withRate 0x46480000#32).seq = .idle ∧
      ¬(0x46480000 < (withRate 0x46480000#32).regs.sampleRate.toNat ∧
        (withRate 0x46480000#32).regs.sampleRate.toNat < 0x7F800000) ∧
      ¬(0x46480000 < (withRate 0x7F800000#32).regs.sampleRate.toNat ∧
        (withRate 0x7F800000#32).regs.sampleRate.toNat < 0x7F800000) := by
  decide

theorem witness_CommandFrame :
    (∃ t, exec .nop State.reset = .next t) ∧ (∃ t, exec .step State.reset = .next t) ∧
      (∃ t, exec .reset State.reset = .next t) ∧ ∃ t, exec .configure busyState = .next t :=
  ⟨⟨_, rfl⟩, ⟨_, rfl⟩, ⟨_, rfl⟩, ⟨_, rfl⟩⟩

/-- Each of the five errors of R261, and none for a NOP while busy. -/
theorem witness_ErrorPriorityAndPrecision :
    errorOf (cmdPins 7#32) busyState = some .illegalCmd ∧ errorOf (cmdPins 2#32) busyState = some .busy ∧
      errorOf (cmdPins 3#32) State.reset = some .badFs ∧
      errorOf (cmdPins 1#32) State.reset = some .notConfigured ∧
      errorOf ⟨true, true, true, 0x100#9, 0b1111#4, 0⟩ State.reset = some .bus ∧
      errorOf (cmdPins 0#32) busyState = none ∧
      gives (access (cmdPins 0#32) busyState) busyState := by
  decide

/-- A core with ERR_NOT_CONFIGURED set, whose host clears it. -/
def clearingState : State :=
  pushEvent (.edge ⟨true, true, true, 0x008#9, 0b1111#4, 0x00000800#32⟩)
    { State.reset with err := 0b01000#5 }

theorem witness_ErrorBitsAreSticky :
    nextEvent clearingState = .edge ⟨true, true, true, 0x008#9, 0b1111#4, 0x00000800#32⟩ ∧
      gives (step clearingState) State.reset ∧ clearingState.err.getLsbD 3 = true ∧
      State.reset.err.getLsbD 3 = false ∧
      gives (step (pushEvent (.edge (cmdPins 1#32)) State.reset))
        { State.reset with err := 0b01000#5 } := by
  decide

/-- A decoded access, a cycle without one on an idle and on a busy core, and each kind of rejected
access. -/
theorem witness_StepRunsDecodedInstruction :
    nextEvent (pushEvent (.edge (cmdPins 2#32)) routeState) = .edge (cmdPins 2#32) ∧
      (cmdPins 2#32).rstN = true ∧ (cmdPins 2#32).req = true ∧
      decode (fetchForm (cmdPins 2#32)) = .ok .reset ∧
      gives (exec .reset routeState) { routeState with bandOffset := 0 } ∧
      nextEvent routeState = .edge idlePins ∧ idlePins.rstN = true ∧ idlePins.req = false ∧
      routeState.seq = .idle ∧ nextEvent busyState = .edge idlePins ∧ busyState.seq ≠ .idle ∧
      decode (fetchForm (cmdPins 0x100#32)) = .error (.illegalCommand 0x100#32) ∧
      decode (fetchForm ⟨true, true, true, 0x004#9, 0b0111#4, 1#32⟩) =
        .error (.partialAccess 0b0111#4) ∧
      decode (fetchForm ⟨true, true, false, 0x003#9, 0b1111#4, 0⟩) = .error (.misaligned 0x003#9) := by
  decide

/-- Vectors A8 and C6 as whole steps: a misaligned read and an illegal word written at reset. -/
theorem test_step_rejected :
    gives (step (pushEvent (.edge ⟨true, true, false, 0x002#9, 0b1111#4, 0⟩) State.reset))
        { State.reset with rdata := some 0#32, err := 0b10000#5 } ∧
      gives (step (pushEvent (.edge (cmdPins 7#32)) State.reset))
        { State.reset with err := 0b00001#5 } := by
  decide

theorem witness_EveryEdgeHasANextState : nextEvent State.reset = .edge idlePins := by decide

/-- A read presented while `rst_n` is low. -/
def resetPins : Pins := ⟨false, true, false, 0x000#9, 0b1111#4, 0⟩

theorem witness_PowerOnReset :
    nextEvent (pushEvent (.edge resetPins) busyState) = .edge resetPins ∧ resetPins.rstN = false := by
  decide

theorem witness_PendingCommandIsUndisturbed :
    nextEvent (pushEvent (.edge (cmdPins 1#32)) busyState) = .edge (cmdPins 1#32) ∧
      (cmdPins 1#32).rstN = true ∧
      (pushEvent (.edge (cmdPins 1#32)) busyState).seq = .busy .configure 2 ∧ 2 ≤ 2 := by
  decide

theorem witness_PendingCommandCompletes :
    busyState.seq = .busy .configure 2 ∧ RunsFor 2 (pushEvent (.edge (cmdPins 1#32)) busyState) := by
  unfold RunsFor; decide

theorem witness_CommandRunsToCompletion :
    configuredState.seq = .idle ∧ configuredState.configured = true ∧
      (withRate 0x473B8000#32).seq = .idle ∧ fsOk (withRate 0x473B8000#32).regs.sampleRate = true := by
  decide

/-- The band-offset knob at both ends of its range, and each case of its control voltage. -/
theorem witness_BandOffsetFromKnobAndCv :
    inRange 0xC1780000#32 0x41780000#32 (bofsRegs 0xC1780000#32 none).bofsKnob ∧
      (bofsRegs 0xC1780000#32 none).connect.getLsbD 22 = false ∧
      inRange 0xC1780000#32 0x41780000#32 (bofsRegs 0x41780000#32 (some 0x7FC00000#32)).bofsKnob ∧
      (bofsRegs 0x41780000#32 (some 0x7FC00000#32)).connect.getLsbD 22 = true ∧
      isNaN (bofsRegs 0x41780000#32 (some 0x7FC00000#32)).bofsCv = true ∧
      (bofsRegs 0 (some 0x7F800000#32)).bofsCv = 0x7F800000#32 ∧
      (bofsRegs 0 (some 0xFF800000#32)).bofsCv = 0xFF800000#32 := by
  unfold inRange; decide

theorem witness_RouteInsertOrEnvelope :
    routeState.snap.connect.getLsbD (rot routeState 2).val = true ∧
      routeState.snap.connect.getLsbD (rot routeState 3).val = false ∧
      { routeState with snap := Regs.reset }.bandOffset.toInt = 3 ∧
      ∀ j : Band, { routeState with snap := Regs.reset }.snap.connect.getLsbD j.val = false := by
  decide

theorem witness_DisconnectedInsertIsIgnored : routeState.snap.connect.getLsbD 4 = false := by decide

theorem witness_QTargetIsClamped :
    inRange 0x3F800000#32 0x41700000#32 Regs.reset.carqKnob ∧
      Regs.reset.connect.getLsbD 20 = false ∧ inRange 0x3F800000#32 0x41700000#32 Regs.reset.modqKnob ∧
      Regs.reset.connect.getLsbD 21 = false := by
  unfold inRange; decide

/-- A core that has run: known coefficients, one pending STEP, an impulse of 5 V at both inputs (P5).
Band 0 has an envelope below the coming peak 0.0625, band 1 above it, band 2 equal to it, band 3 a NaN
history and band 4 an infinite envelope. -/
def soundingState : State :=
  { State.reset with
    configured := true
    fs := 0x473B8000#32
    qApplied := ⟨0x3F800000#32, 0x3F800000#32⟩
    coef := ⟨Lanes.fill ⟨sampleCoef, sampleCoef⟩, Lanes.fill ⟨sampleCoef, sampleCoef⟩⟩
    hist := ⟨(Lanes.fill ⟨Hist.zero, Hist.zero⟩).set 3 ⟨⟨0x7FC00000#32, 0, 0, 0⟩, Hist.zero⟩,
      Lanes.fill ⟨Hist.zero, Hist.zero⟩⟩
    env := (((Lanes.fill 0).set 1 0x3F800000#32).set 2 0x3D800000#32).set 4 0x7F800000#32
    snap := { Regs.reset with
      modIn := 0x40A00000#32, carIn := 0x40A00000#32, connect := 0x00030000#32 }
    seq := .busy .step 1 }

theorem witness_QUpdatesWithHysteresis :
    ge32 (abs32 (sub32 (qTarget .car soundingState.snap) (soundingState.qApplied.get .car)))
        0x3DCCCCCD#32 = false ∧
      ge32 (abs32 (sub32 (qTarget .mod State.reset.snap) (State.reset.qApplied.get .mod)))
        0x3DCCCCCD#32 = true := by
  decide

/-- Another band's history and the other bank's coefficients differ. -/
def otherState : State :=
  { soundingState with
    hist := State.reset.hist, coef := soundingState.coef.set .car State.reset.coef.car }

theorem witness_BandsAreIndependent :
    otherState.snap = soundingState.snap ∧ otherState.fs = soundingState.fs ∧
      otherState.qApplied.get .mod = soundingState.qApplied.get .mod ∧
      (otherState.coef.get .mod).get 0 = (soundingState.coef.get .mod).get 0 ∧
      (otherState.hist.get .mod).get 0 = (soundingState.hist.get .mod).get 0 ∧
      otherState.hist ≠ soundingState.hist := by
  decide

/-- No Q update is due, so the peaks come from the coefficients the state holds. -/
theorem sounding_peak (i : Band) :
    (complete .step soundingState).peak.get i =
      abs32 (cascade ⟨sampleCoef, sampleCoef⟩ ((soundingState.hist.get .mod).get i)
        0x3F800000#32).1 := by
  have hc : (prepare soundingState).coef.get .mod = Lanes.fill ⟨sampleCoef, sampleCoef⟩ := by
    rw [(prepare_bank soundingState .mod).2, if_neg (by decide)]; rfl
  have hx : modSample soundingState.snap = 0x3F800000#32 := by decide
  rw [complete_step_peak, stepCommit_peak, hc, hx, Lanes.get_fill]

/-- From rest the peak is 0.0625 (vector Q13), with a NaN in the history it is the NaN of R17. -/
theorem sounding_peaks :
    (complete .step soundingState).peak.get 0 = 0x3D800000#32 ∧
      (complete .step soundingState).peak.get 1 = 0x3D800000#32 ∧
      (complete .step soundingState).peak.get 2 = 0x3D800000#32 ∧
      (complete .step soundingState).peak.get 3 = 0x7FC00000#32 ∧
      (complete .step soundingState).peak.get 4 = 0x3D800000#32 := by
  simp only [sounding_peak]
  refine ⟨?_, ?_, ?_, ?_, ?_⟩ <;> decide

/-- A rising, a falling, an unchanged and a frozen envelope. -/
theorem witness_EnvelopesFollowThePeaks :
    gt32 ((complete .step soundingState).peak.get 0) (soundingState.env.get 0) = true ∧
      lt32 ((complete .step soundingState).peak.get 1) (soundingState.env.get 1) = true ∧
      (gt32 ((complete .step soundingState).peak.get 2) (soundingState.env.get 2) = false ∧
        lt32 ((complete .step soundingState).peak.get 2) (soundingState.env.get 2) = false) ∧
      isNaN ((complete .step soundingState).peak.get 3) = true := by
  obtain ⟨h0, h1, h2, h3, -⟩ := sounding_peaks
  rw [h0, h1, h2, h3]; decide

theorem legal_sounding : RegsLegal soundingState.snap := by
  refine ⟨fun k => ?_, fun i => ?_, by decide⟩
  · cases k <;> exact ⟨by decide, by decide, by decide⟩
  · have : soundingState.snap.bandGain = Lanes.fill 0x3F800000#32 := rfl
    rw [this, Lanes.get_fill]; exact ⟨by decide, by decide, by decide⟩

theorem witness_EnvelopesDoNotOvershoot :
    RegsLegal soundingState.snap ∧ fsOk soundingState.fs = true ∧
      (∀ i : Band, isNaN (soundingState.env.get i) = false ∧ isNeg (soundingState.env.get i) = false) ∧
      (isNaN ((complete .step soundingState).peak.get 0) = false ∧
        le32 (soundingState.env.get 0) ((complete .step soundingState).peak.get 0) = true) ∧
      (isNaN ((complete .step soundingState).peak.get 1) = false ∧
        ge32 (soundingState.env.get 1) ((complete .step soundingState).peak.get 1) = true) := by
  obtain ⟨h0, h1, -⟩ := sounding_peaks
  rw [h0, h1]
  exact ⟨legal_sounding, by decide, by decide, by decide, by decide⟩

theorem witness_InfiniteEnvelopeRecovers :
    RegsLegal soundingState.snap ∧ fsOk soundingState.fs = true ∧
      soundingState.env.get 4 = 0x7F800000#32 ∧
      isFinite ((complete .step soundingState).peak.get 4) = true := by
  obtain ⟨-, -, -, -, h4⟩ := sounding_peaks
  rw [h4]
  exact ⟨legal_sounding, by decide, by decide, by decide⟩

theorem witness_SlewRateBounds :
    isFinite 0xBE800000#32 = true ∧ isFinite 0x3F000000#32 = true ∧
      le32 0xBE800000#32 0x3F000000#32 = true := by
  decide

theorem legal_powerOn : RegsLegal Regs.reset :=
  ⟨fun k => by cases k <;> exact ⟨by decide, by decide, by decide⟩,
    fun i => by
      have : Regs.reset.bandGain = Lanes.fill 0x3F800000#32 := rfl
      rw [this, Lanes.get_fill]; exact ⟨by decide, by decide, by decide⟩, by decide⟩

/-- Both control voltages disconnected. -/
theorem witness_SlewKnobIsKnobPlusClampedCv :
    RegsLegal Regs.reset ∧ Regs.reset.connect.getLsbD 18 = false ∧
      Regs.reset.connect.getLsbD 19 = false :=
  ⟨legal_powerOn, by decide, by decide⟩

theorem witness_DisconnectedInputsAreSilent :
    RegsLegal Regs.reset ∧ Regs.reset.connect.getLsbD 16 = false ∧
      Regs.reset.connect.getLsbD 17 = false :=
  ⟨legal_powerOn, by decide, by decide⟩

/-- A configured silent core: the same coefficients, zero histories of either sign. -/
def silentState : State :=
  { soundingState with
    snap := Regs.reset
    env := Lanes.fill 0
    hist := ⟨Lanes.fill ⟨Hist.zero, ⟨0x80000000#32, 0, 0, 0x80000000#32⟩⟩,
      Lanes.fill ⟨Hist.zero, Hist.zero⟩⟩ }

theorem witness_SilenceStaysSilent :
    RegsLegal silentState.snap ∧ silentState.snap.connect.toNat % 262144 = 0 ∧
      (∀ b : Bank, qHystTest (silentState.qApplied.get b) (qTarget b silentState.snap) = false) ∧
      (∀ (b : Bank) (i : Band) (st : Stage), FiniteCoef (((silentState.coef.get b).get i).get st)) ∧
      (∀ (b : Bank) (i : Band) (st : Stage), ZeroHist (((silentState.hist.get b).get i).get st)) ∧
      ∀ i : Band, silentState.env.get i = 0x00000000#32 := by
  have hm : silentState.hist.mod =
      Lanes.fill ⟨Hist.zero, ⟨0x80000000#32, 0, 0, 0x80000000#32⟩⟩ := rfl
  have hk : silentState.hist.car = Lanes.fill ⟨Hist.zero, Hist.zero⟩ := rfl
  have cm : silentState.coef.mod = Lanes.fill ⟨sampleCoef, sampleCoef⟩ := rfl
  have ck : silentState.coef.car = Lanes.fill ⟨sampleCoef, sampleCoef⟩ := rfl
  have hf : FiniteCoef sampleCoef := ⟨by decide, by decide, by decide, by decide, by decide⟩
  refine ⟨legal_powerOn, by decide, fun b => by cases b <;> decide, fun b i st => ?_, fun b i st => ?_,
    by decide⟩
  · cases b <;> cases st <;> simp only [Banks.get, cm, ck, Lanes.get_fill, Stages.get, hf]
  · cases b <;> cases st <;> simp only [Banks.get, hm, hk, Lanes.get_fill, Stages.get] <;>
      exact ⟨by decide, by decide, by decide, by decide⟩

/-- A step that completes a STEP, one that only runs an idle cycle, and one with `rst_n` low. -/
theorem witness_OnlyStepMovesTheSignalState :
    (∃ t, step soundingState = .next t) ∧ (∃ t, step State.reset = .next t) ∧
      ∃ t, step (pushEvent (.edge resetPins) soundingState) = .next t :=
  ⟨⟨_, rfl⟩, ⟨_, rfl⟩, ⟨_, rfl⟩⟩

theorem witness_OnlyConfigureSetsTheRate :
    (∃ t, step { busyState with seq := .busy .configure 1 } = .next t) ∧
      nextEvent { busyState with seq := .busy .configure 1 } = .edge idlePins ∧
      idlePins.rstN = true ∧ (∃ t, step soundingState = .next t) ∧
      nextEvent soundingState = .edge idlePins ∧ soundingState.configured = true :=
  ⟨⟨_, rfl⟩, rfl, rfl, ⟨_, rfl⟩, rfl, rfl⟩

/-- A configured core with a STEP pending, whose coefficients are COEF of its rate and Q. -/
def appliedState : State :=
  { soundingState with
    coef := ⟨bankCoef 0x473B8000#32 0x3F800000#32, bankCoef 0x473B8000#32 0x3F800000#32⟩
    envOut := Lanes.ofFn fun i => envOutOf (soundingState.env.get i) }

/-- A state of the invariant with a pending STEP, and the step that completes it. -/
theorem witness_InvariantIsKept :
    CoreInv appliedState ∧ ∃ t, step appliedState = .next t := by
  have hq : SeqLegal appliedState := ⟨le_refl 1, Config.params.stepLatency_pos, rfl⟩
  have he : ∀ i : Band, isNaN (appliedState.env.get i) = false ∧ isNeg (appliedState.env.get i) = false := by
    show ∀ i : Band, isNaN (soundingState.env.get i) = false ∧ isNeg (soundingState.env.get i) = false
    decide
  refine ⟨⟨legal_powerOn, legal_sounding, hq, fun _ => by decide, fun _ b => ?_, fun _ b i st => ?_,
    by decide, he, by decide, fun i => ?_⟩, ⟨_, rfl⟩⟩
  · cases b <;> exact ⟨by decide, by decide, by decide⟩
  · cases b <;> cases st <;>
      simp [appliedState, soundingState, bankCoef, Banks.get, Stages.get]
  · simp [appliedState]

end Sys2Proof.Machine
end

/-!
PROOFS, the layer of facts. What a register access, one cycle and a completed command leave, each said
once for the proofs that follow.
-/

namespace Sys2Proof.Machine

/-! ### Reads and writes of a register at its own offset -/

/-- RD of a register's own offset returns its value (R72). -/
theorem exec_rd_offset (r : Reg) (s : State) :
    exec (.rd r.offset) s = .next { s with rdata := some (regValue s r) } :=
  execRd_offset r s

/-- WR to a register's own offset is the write of that register (R73). -/
theorem exec_wr_offset (r : Reg) (w : Word) (s : State) :
    exec (.wr r.offset w) s = writeReg r w s :=
  execWr_offset r w s

/-- A write to a parameter or input register stores, and changes nothing else (R73). -/
theorem writeReg_stored {r : Reg} (h : r.isStored = true) (w : Word) (s : State) :
    writeReg r w s = .next { s with regs := storeReg s.regs r w } := by
  have hc : r ≠ .cmd := by rintro rfl; cases h
  have hs : r ≠ .status := by rintro rfl; cases h
  simp [writeReg, hc, hs, h]

/-- A write to a read-only register is an access error (R76). -/
theorem writeReg_readOnly {r : Reg} (h : r.isReadOnly = true) (w : Word) (s : State) :
    writeReg r w s = .next (busErrorWrite s) := by
  have hc : r ≠ .cmd := by rintro rfl; cases h
  have hs : r ≠ .status := by rintro rfl; cases h
  have hn : r.isStored = false := by unfold Reg.isReadOnly at h; split at h <;> simp_all
  simp [writeReg, hc, hs, hn]

/-- A write to STATUS clears the error bits it names (R33). -/
theorem writeReg_status (w : Word) (s : State) :
    writeReg .status w s = .next (clearErrors w s) := rfl

theorem exec_wr_stored {r : Reg} (h : r.isStored = true) (w : Word) (s : State) :
    exec (.wr r.offset w) s = .next { s with regs := storeReg s.regs r w } := by
  rw [exec_wr_offset, writeReg_stored h]

/-- An aligned offset names no register but the one whose offset it is (R31). -/
theorem offset_of_regAt {off : Offset} {r : Reg} (ha : alignedOffset off = true)
    (h : regAt off = some r) : r.offset = off := by
  have table : ∀ n : Fin 128, ∀ r ∈ regAt (BitVec.ofNat 9 (4 * n.val)),
      r.offset = BitVec.ofNat 9 (4 * n.val) := by decide
  obtain ⟨n, hn, rfl⟩ := alignedOffset_word ha
  exact table ⟨n, hn⟩ r h

/-! ### Error bits -/

/-- Each cause has one bit of S.err (R54, R261). -/
theorem getLsbD_mask (e : ErrBit) {k : Nat} (hk : k < 5) :
    e.mask.getLsbD k = true ↔ e.code = 8 + k := by
  interval_cases k <;> cases e <;> decide

/-- A write of `w` to STATUS clears the bits `w` names and keeps the others (R33). -/
theorem getLsbD_errAfterClear (err : BitVec 5) (w : Word) {k : Nat} (hk : k < 5) :
    (errAfterClear err w).getLsbD k = (err.getLsbD k && !w.getLsbD (8 + k)) := by
  simp only [errAfterClear, BitVec.getLsbD_and, BitVec.getLsbD_not, BitVec.getLsbD_extractLsb', hk,
    decide_true, Bool.true_and]

/-! ### One cycle -/

theorem sameInternal_withOutside (r : Regs) (q : Seq) (e : BitVec 5) (d : Option Word)
    (l : List HostEvent) (s : State) : SameInternal s (withOutside r q e d l s) :=
  ⟨rfl, rfl, rfl, rfl, rfl, rfl, rfl, rfl, rfl, rfl⟩

/-- Agreement on the internal elements is agreement on the signal state (R47, R49 to R51). -/
theorem SameInternal.signal {s t : State} (h : SameInternal s t) :
    t.hist = s.hist ∧ t.env = s.env ∧ t.peak = s.peak ∧ t.envOut = s.envOut ∧ t.out = s.out :=
  ⟨h.hist, h.env, h.peak, h.envOut, h.out⟩

/-- An access changes no internal element but, by a RESET, the band offset. -/
theorem Effect.sameInternal {s t : State} (h : Effect s t) :
    SameInternal { s with bandOffset := t.bandOffset } t := by
  cases h <;> exact ⟨rfl, rfl, rfl, rfl, rfl, rfl, rfl, rfl, rfl, rfl⟩

theorem busyFlag_of_busy {s : State} {op : BusyOp} {n : Nat} (h : s.seq = .busy op n) :
    busyFlag s = true := by
  simp [busyFlag, h]

theorem tick_completes {s : State} {op : BusyOp} {n : Nat} (h : s.seq = .busy op n) (hn : n ≤ 1) :
    tick s = complete op s := by
  simp [tick, h, hn]

theorem tick_counts {s : State} {op : BusyOp} {n : Nat} (h : s.seq = .busy op n) (hn : 2 ≤ n) :
    tick s = { s with seq := .busy op (n - 1) } := by
  simp [tick, h, show ¬ n ≤ 1 by omega]

/-- What one cycle with `rst_n` high does: an idle core's is its access alone; while a command is
pending the access leaves the command and the internal elements alone, and the command then completes
or counts down (R71, R305). -/
theorem runStep_cases {s t : State} {p : Pins} (h : step s = .next t) (hp : nextEvent s = .edge p)
    (hr : p.rstN = true) :
    (s.seq = .idle ∧ Effect (dropData (popEvent s)) t) ∨
      ∃ op n u, s.seq = .busy op n ∧ SameInternal s u ∧ u.seq = .busy op n ∧ u.snap = s.snap ∧
        ((n ≤ 1 ∧ t = complete op u) ∨ (2 ≤ n ∧ t = { u with seq := .busy op (n - 1) })) := by
  obtain ⟨u, -, he, hs⟩ := step_run hp hr
  obtain rfl : (if busyFlag s then tick u else u) = t := by rw [hs] at h; cases h; rfl
  cases hq : s.seq with
  | idle =>
    have hb : busyFlag s = false := by simp [busyFlag, hq]
    rw [if_neg (by simp [hb])]
    exact .inl ⟨rfl, he⟩
  | busy op n =>
    have hb := busyFlag_of_busy hq
    obtain ⟨hi, hus, hsn, -⟩ := he.busy (s := dropData (popEvent s)) hb
    have hu : u.seq = .busy op n := hus.trans hq
    rw [if_pos hb]
    have hsu := (sameInternal_withOutside s.regs s.seq s.err none s.host.tail s).trans hi
    refine .inr ⟨op, n, u, rfl, hsu, hu, hsn, ?_⟩
    rcases Nat.lt_or_ge 1 n with hn | hn
    · exact .inr ⟨hn, tick_counts hu hn⟩
    · exact .inl ⟨hn, tick_completes hu hn⟩

/-! ### What a command leaves -/

@[simp] theorem bankCoef_get (fs q : Word) (i : Band) (st : Stage) :
    ((bankCoef fs q).get i).get st = bandCoef i fs q := by
  cases st <;> simp [bankCoef, Stages.get]

/-- The requested Q lies in [1, 15], whatever the registers hold (R150). -/
theorem qTarget_range (b : Bank) (l : Regs) : inRange qMin qMax (qTarget b l) :=
  clamp32_spec _ (by decide) (by decide) (by decide)

/-- The wrapped band offset lies in [-15, 15] (R192). -/
theorem bofsWrap_range (n : Int) : -15 ≤ bofsWrap n ∧ bofsWrap n ≤ 15 := by
  unfold bofsWrap; split
  · decide
  · split
    · decide
    · omega

/-- As an int32 it keeps its value (R52, R193). -/
theorem toInt_bofsWrap (n : Int) : (BitVec.ofInt 32 (bofsWrap n)).toInt = bofsWrap n := by
  obtain ⟨h1, h2⟩ := bofsWrap_range n
  rw [BitVec.toInt_ofInt]
  exact Int.bmod_eq_of_le (by omega) (by omega)

section Envelope
variable {c p rate fs : Word}

/-- A rising envelope stays a value of [+0, +inf] (R57, R173). -/
theorem envAttack_range (nc : isNeg c = false) (np : isNeg p = false) (nr : isNeg rate = false)
    (nf : isNeg fs = false) (hp : lt32 c p = true) :
    isNaN (envAttack c p rate fs) = false ∧ isNeg (envAttack c p rate fs) = false := by
  obtain ⟨-, hpn, hk⟩ := lt32_iff.1 hp
  have hd : isNeg (slewDelta rate (sub32 p c) fs) = false :=
    isNeg_slewDelta nr (isNeg_gap np nc hk.le) nf
  obtain ⟨hn, -, he⟩ := minnum_spec (add32 c (slewDelta rate (sub32 p c) fs)) hpn
  refine ⟨hn, ?_⟩
  unfold envAttack
  rcases he with e | e <;> rw [e]
  · exact isNeg_add32 nc hd
  · exact np

/-- A falling envelope does too: it is clamped from below at the peak (R57, R174). -/
theorem envDecay_range (np : isNeg p = false) (hpn : isNaN p = false) :
    isNaN (envDecay c p rate fs) = false ∧ isNeg (envDecay c p rate fs) = false := by
  obtain ⟨hn, hk, -⟩ := maxnum_spec (sub32 c (slewDelta rate (sub32 c p) fs)) hpn
  exact ⟨hn, (isNeg_iff_totalKey _).2 (((isNeg_iff_totalKey p).1 np).trans hk)⟩

/-- ENV_UPDATE keeps an envelope in [+0, +inf] (R57, R175). -/
theorem envNext_range {rDec : Word} (hc : isNaN c = false) (nc : isNeg c = false)
    (np : isNeg p = false) (nr : isNeg rate = false) (nf : isNeg fs = false) :
    isNaN (envNext c p rate rDec fs) = false ∧ isNeg (envNext c p rate rDec fs) = false := by
  unfold envNext
  split
  · next h => exact envAttack_range nc np nr nf h
  · split
    · next h => exact envDecay_range np (lt32_iff.1 h).1
    · exact ⟨hc, nc⟩

end Envelope

end Sys2Proof.Machine

/-!
PROOFS. The invariant of the core (R42, R45, R48, R52, R53, R57): it holds at power-on, every access keeps
it, and so does the completion of either command.
-/

namespace Sys2Proof.Machine

/-- The invariant reads neither the error bits nor the ports. -/
theorem CoreInv.ports {s : State} (h : CoreInv s) (e : BitVec 5) (d : Option Word)
    (l : List HostEvent) : CoreInv { s with err := e, rdata := d, host := l } :=
  ⟨h.regs, h.snap, h.seq, h.fs, h.applied, h.coef, h.offset, h.env, h.peak, h.envOut⟩

/-- Settles O58: every element has its value from R58. -/
theorem invariantAtReset : Obligations.InvariantAtReset where
  regs := legal_powerOn
  snap := legal_powerOn
  seq := trivial
  fs := by intro h; cases h
  applied := by intro h; cases h
  coef := by intro h; cases h
  offset := by decide
  env := by decide
  peak := by decide
  envOut := by decide

theorem coreInv_resetEdge (p : Pins) (s : State) : CoreInv (resetEdge p s) := by
  unfold resetEdge
  have h0 : CoreInv State.reset := invariantAtReset
  split <;> exact h0.ports _ _ _

theorem latency_pos (op : BusyOp) : 1 ≤ latency op := by
  cases op
  · exact Config.params.stepLatency_pos
  · exact Config.params.configureLatency_pos

/-- Every access keeps the invariant (R42, R43, R53, R56). -/
theorem CoreInv.effect {s t : State} (h : CoreInv s) (he : Effect s t) : CoreInv t := by
  cases he with
  | store r w _ => exact { h with regs := storeReg_legal s.regs r w h.regs }
  | offset _ =>
    have h0 : -15 ≤ (0x00000000#32).toInt ∧ (0x00000000#32).toInt ≤ 15 := by decide
    exact { h with offset := h0 }
  | acceptStep _ hc => exact { h with snap := h.regs, seq := ⟨latency_pos .step, le_rfl, hc⟩ }
  | acceptConfigure _ hf =>
    exact { h with snap := h.regs, seq := ⟨latency_pos .configure, le_rfl, hf⟩ }
  | _ => exact h.ports _ _ _

/-- The Q update of a STEP keeps each bank's Q in range and its coefficients those of its Q (R48, R153). -/
theorem prepare_applied {s : State} (b : Bank) (hq : inRange qMin qMax (s.qApplied.get b))
    (hc : ∀ (i : Band) (st : Stage),
      ((s.coef.get b).get i).get st = bandCoef i s.fs (s.qApplied.get b)) :
    inRange qMin qMax ((prepare s).qApplied.get b) ∧ ∀ (i : Band) (st : Stage),
      (((prepare s).coef.get b).get i).get st = bandCoef i s.fs ((prepare s).qApplied.get b) := by
  obtain ⟨e1, e2⟩ := prepare_bank s b
  rw [e1, e2]
  split
  · exact ⟨qTarget_range b s.snap, fun i st => bankCoef_get _ _ i st⟩
  · exact ⟨hq, hc⟩

/-- The completion of a STEP on a configured core keeps the invariant (R232, R233). -/
theorem CoreInv.completeStep {s : State} (h : CoreInv s) (hconf : s.configured = true) :
    CoreInv (complete .step s) := by
  have hfs := h.fs hconf
  have hrate := isNeg_slewRate (slewKnob_finite .attack h.snap)
  have hq := fun b => prepare_applied b (h.applied hconf b) (h.coef hconf b)
  have hpeak : ∀ i, isNeg ((stepCommit s).peak.get i) = false := fun i => by
    rw [stepCommit_peak]; exact isNeg_abs32 _
  constructor
  case regs => rw [complete_regs]; exact h.regs
  case snap => rw [complete_snap]; exact h.snap
  case seq => unfold SeqLegal; rw [complete_seq]; trivial
  case fs => intro _; rw [complete_step_fs]; exact hfs
  case applied => intro _ b; rw [complete_step_qApplied]; exact (hq b).1
  case coef =>
    intro _ b i st
    rw [complete_step_coef, complete_step_qApplied, complete_step_fs]
    exact (hq b).2 i st
  case offset => rw [complete_step_bandOffset, toInt_bofsWrap]; exact bofsWrap_range _
  case env =>
    intro i
    obtain ⟨hc, nc⟩ := h.env i
    rw [complete_step_env, stepCommit_env]
    exact envNext_range hc nc (hpeak i) hrate (fsOk_pos hfs).1
  case peak => intro i; rw [complete_step_peak]; exact hpeak i
  case envOut =>
    intro i; rw [complete_step_envOut, complete_step_env]; exact stepCommit_envOut s i

/-- The completion of a CONFIGURE whose latched rate is usable keeps the invariant (R235, R236). -/
theorem CoreInv.completeConfigure {s : State} (h : CoreInv s)
    (hf : fsOk s.snap.sampleRate = true) : CoreInv (complete .configure s) where
  regs := h.regs
  snap := h.snap
  seq := trivial
  fs := fun _ => hf
  applied := by
    rintro - (_ | _)
    · exact qTarget_range .mod s.snap
    · exact qTarget_range .car s.snap
  coef := by
    rintro - (_ | _) i st
    · exact bankCoef_get s.snap.sampleRate (qTarget .mod s.snap) i st
    · exact bankCoef_get s.snap.sampleRate (qTarget .car s.snap) i st
  offset := h.offset
  env := h.env
  peak := h.peak
  envOut := h.envOut

/-- One count of the sequencer keeps the invariant (R53, R305). -/
theorem CoreInv.tick {s : State} (h : CoreInv s) : CoreInv (tick s) := by
  have hq := h.seq
  unfold SeqLegal at hq
  cases hs : s.seq with
  | idle => rw [tick_of_idle (by simp [busyFlag, hs])]; exact h
  | busy op n =>
    rw [hs] at hq
    rcases Nat.lt_or_ge 1 n with hn | hn
    · rw [tick_counts hs hn]
      refine { h with seq := ?_ }
      cases op <;> obtain ⟨-, hl, hp⟩ := hq <;> exact ⟨by omega, by omega, hp⟩
    · rw [tick_completes hs hn]
      cases op with
      | step => obtain ⟨-, -, hc⟩ := hq; exact h.completeStep hc
      | configure => obtain ⟨-, -, hf⟩ := hq; exact h.completeConfigure hf

/-- Settles O59: a step is a reset edge, or an access followed by at most one count of the sequencer, and
each of them keeps the invariant. -/
theorem invariantIsKept : Obligations.InvariantIsKept := by
  intro s t h hst
  obtain ⟨p, -, ⟨-, rfl⟩ | ⟨-, u, -, he, rfl⟩⟩ := step_cases hst
  · exact coreInv_resetEdge p (popEvent s)
  · have hu : CoreInv u := CoreInv.effect (h.ports _ _ _) he
    split
    · exact hu.tick
    · exact hu

end Sys2Proof.Machine

/-!
PROOFS. The register file as the host sees it: the register map, what each register returns, and what a
write stores (R31 to R43).
-/

namespace Sys2Proof.Machine

/-! ### Reads -/

/-- Settles O5: every register is found at its own offset, and a read there returns its value. -/
theorem registerMap : Obligations.RegisterMap := by
  refine ⟨regAt_offset, fun off r => offset_of_regAt, fun r => ?_, fun s => ?_, fun r v => ?_⟩
  · cases r with
    | knob k => cases k <;> rfl
    | input j => cases j <;> rfl
    | bandGain i => exact Nat.mod_eq_of_lt (by omega)
    | insertIn i => exact Nat.mod_eq_of_lt (by omega)
    | envOut i => exact Nat.mod_eq_of_lt (by omega)
    | peak i => exact Nat.mod_eq_of_lt (by omega)
    | env i => exact Nat.mod_eq_of_lt (by omega)
    | _ => rfl
  · have knob := fun k => exec_rd_offset (.knob k) s
    have input := fun j => exec_rd_offset (.input j) s
    exact ⟨exec_rd_offset .sampleRate s, exec_rd_offset .connect s, knob .attack, knob .decay,
      knob .carq, knob .modq, knob .bofs, knob .modGain, knob .carGain, knob .outGain,
      input .modIn, input .carIn, input .attackCv, input .decayCv, input .carqCv, input .modqCv,
      input .bofsCv, fun i => ⟨exec_rd_offset (.bandGain i) s, exec_rd_offset (.insertIn i) s⟩⟩
  · exact ⟨rfl, rfl, rfl, rfl, rfl, rfl, rfl, rfl, rfl, rfl, rfl, rfl, rfl, rfl, rfl⟩

/-- Settles O8: a read of an output register returns the internal element it shows. -/
theorem outputRegisterViews : Obligations.OutputRegisterViews := fun s =>
  ⟨exec_rd_offset .out s, exec_rd_offset .bandOffset s, exec_rd_offset .modqApplied s,
    exec_rd_offset .carqApplied s, exec_rd_offset .fsApplied s, fun i =>
      ⟨exec_rd_offset (.envOut i) s, exec_rd_offset (.peak i) s, exec_rd_offset (.env i) s⟩⟩

/-- Settles O9: ID is read-only and its value is a constant. -/
theorem idIsConstant : Obligations.IdIsConstant := fun s w =>
  ⟨exec_rd_offset .id s, (exec_wr_offset .id w s).trans (writeReg_readOnly rfl w s)⟩

/-- Settles O10: STATUS reads the packed word of R33, and a write of it clears the named error bits. -/
theorem statusRegister : Obligations.StatusRegister := by
  intro s w
  refine ⟨⟨statusWord s, exec_rd_offset .status s, ?_, ?_, ?_, ?_, ?_⟩,
    ⟨errAfterClear s.err w, (exec_wr_offset .status w s).trans (writeReg_status w s),
      fun k => getLsbD_errAfterClear s.err w⟩, by decide⟩
  · rw [getLsbD_statusWord, if_pos rfl]; exact busyFlag_iff s
  · rw [getLsbD_statusWord, if_neg (by decide), if_pos rfl]
  · intro n h2 h7
    rw [getLsbD_statusWord, if_neg (by omega), if_neg (by omega), if_neg (by omega)]
  · intro k hk
    rw [getLsbD_statusWord, if_neg (by omega), if_neg (by omega), if_pos (by omega),
      if_pos (by omega), Nat.add_sub_cancel_left]
  · intro n hn
    rw [getLsbD_statusWord, if_neg (by omega), if_neg (by omega), if_pos (by omega),
      if_neg (by omega)]

/-! ### Writes -/

/-- The bounds of a knob are ordered and no NaNs (R42). -/
theorem Knob.bounds (k : Knob) :
    isNaN k.lo = false ∧ isNaN k.hi = false ∧ totalKey k.lo ≤ totalKey k.hi := by
  cases k <;> decide

/-- Legalisation between ordered bounds: into the range, the identity there, and a NaN to the lower
bound (R19, R42). -/
theorem clamp32_legalises {lo hi : Word} (hlo : isNaN lo = false) (hhi : isNaN hi = false)
    (h : totalKey lo ≤ totalKey hi) (v : Word) :
    inRange lo hi (clamp32 v lo hi) ∧ (inRange lo hi v → clamp32 v lo hi = v) ∧
      (isNaN v = true → clamp32 v lo hi = lo) :=
  ⟨clamp32_spec v hlo hhi h, fun ⟨hv, h1, h2⟩ => clamp32_id hv hlo hhi h1 h2,
    fun hv => clamp32_nan hv hlo hhi h⟩

/-- Settles O11: a knob register stores the clamp of what is written. -/
theorem knobWritesAreLegalised : Obligations.KnobWritesAreLegalised := by
  refine ⟨fun k => by cases k <;> rfl, fun k => exec_rd_offset (.knob k),
    fun k j v s => knob_setKnob s.regs k j v, fun i => exec_rd_offset (.bandGain i),
    fun k v s => ⟨exec_wr_stored (r := .knob k) rfl v s, ?_⟩,
    fun i v s => ⟨exec_wr_stored (r := .bandGain i) rfl v s, ?_⟩, by decide⟩
  · obtain ⟨hlo, hhi, h⟩ := k.bounds
    exact clamp32_legalises hlo hhi h v
  · exact clamp32_legalises (by decide) (by decide) (by decide) v

theorem getLsbD_legalConnect (w : Word) (n : Nat) :
    (legalConnect w).getLsbD n = (decide (n < 23) && w.getLsbD n) := by
  simp only [legalConnect, BitVec.getLsbD_setWidth, BitVec.getLsbD_extractLsb', Nat.zero_add]
  by_cases h : n < 23
  · simp [h, show n < 32 by omega]
  · simp [h]

/-- Settles O12: an input register and SAMPLE_RATE store the word, CONNECT its low 23 bits. -/
theorem inputWritesStoreRawBits : Obligations.InputWritesStoreRawBits :=
  ⟨fun j => exec_wr_stored (r := .input j) rfl, fun i => exec_wr_stored (r := .insertIn i) rfl,
    exec_wr_stored (r := .sampleRate) rfl,
    fun v s => ⟨legalConnect v, exec_wr_stored (r := .connect) rfl v s, getLsbD_legalConnect v⟩⟩

/-- Settles O22: RESET tests BUSY and then clears the band offset. -/
theorem resetClearsBandOffset : Obligations.ResetClearsBandOffset := by
  intro s
  constructor
  · intro h
    have hb : busyFlag s = false := by simp [busyFlag, h]
    simp [exec, execReset, hb]
  · intro h
    have hb : busyFlag s = true := (busyFlag_iff s).2 h
    simp only [exec, execReset, hb, if_true]
    rfl

/-- Settles O32: the power-on values of R58 and R293. -/
theorem powerOnValues : Obligations.PowerOnValues := by
  refine ⟨rfl, rfl, rfl, rfl, rfl, rfl, rfl, by decide, ?_, by decide, fun k => by cases k <;> rfl,
    fun j => by cases j <;> rfl, rfl, rfl, by decide, rfl, ?_⟩
  · intro b
    refine ⟨by cases b <;> rfl, fun i st => ?_⟩
    cases b <;> cases st <;>
      simp [State.reset, Banks.get, Stages.get, Coef.zero, Hist.zero]
  · have hf : fsOk State.reset.regs.sampleRate = false := by decide
    simp only [exec, execConfigure, hf]
    rfl

end Sys2Proof.Machine

/-!
PROOFS. Which cycles change what: commands in flight, the signal state, the applied rate, and the error
bits (R34, R45 to R48, R56).
-/

namespace Sys2Proof.Machine

/-- Settles O54: a completion commutes with every change outside the snapshot and the internal elements. -/
theorem commandsReadOnlyTheSnapshot : Obligations.CommandsReadOnlyTheSnapshot := by
  intro s op r e d
  refine (complete_withOutside r s.seq e d s.host s op).trans ?_
  simp only [withOutside, complete_seq, complete_host]

/-- Settles O33: the access leaves a pending command alone, and the sequencer counts down. -/
theorem pendingCommandIsUndisturbed : Obligations.PendingCommandIsUndisturbed := by
  intro s p op n hp hr hq hn
  obtain ⟨u, -, -, hs⟩ := step_run hp hr
  refine ⟨_, hs, ?_⟩
  obtain ⟨hi, -⟩ | ⟨op', n', v, hq', hi, hv, hsn, ⟨hn', -⟩ | ⟨-, ht⟩⟩ := runStep_cases hs hp hr
  · rw [hq] at hi; cases hi
  · rw [hq] at hq'; cases hq'; omega
  · rw [hq] at hq'; cases hq'
    rw [ht]
    exact ⟨rfl, hsn, hi.trans (sameInternal_withOutside v.regs _ v.err v.rdata v.host v)⟩

/-- Settles O56: only the completion of a STEP writes the histories, the envelope followers and OUT. -/
theorem onlyStepMovesTheSignalState : Obligations.OnlyStepMovesTheSignalState := by
  intro s t h
  obtain ⟨p, hp, hc⟩ := step_cases h
  cases hr : p.rstN with
  | false => exact .inr (.inr ⟨p, hp, hr⟩)
  | true =>
    obtain ⟨-, he⟩ | ⟨op, n, u, hq, hi, -, -, hu⟩ := runStep_cases h hp hr
    · exact .inl he.sameInternal.signal
    · obtain ⟨hn, rfl⟩ | ⟨-, rfl⟩ := hu
      · cases op with
        | step => exact .inr (.inl ⟨n, hq, hn, complete_seq u .step⟩)
        | configure => exact .inl hi.signal
      · exact .inl hi.signal

/-- Settles O57: only the completion of a CONFIGURE writes CONFIGURED and S.fs, and only a completion
writes the coefficients and the applied Q. -/
theorem onlyConfigureSetsTheRate : Obligations.OnlyConfigureSetsTheRate := by
  intro s t p h hp hr
  obtain ⟨-, he⟩ | ⟨op, n, u, hq, hi, -, hsn, hu⟩ := runStep_cases h hp hr
  · have hi := he.sameInternal
    exact ⟨hi.configured.trans, .inl ⟨hi.configured, hi.fs⟩, .inl ⟨hi.coef, hi.qApplied⟩⟩
  · obtain ⟨hn, rfl⟩ | ⟨-, rfl⟩ := hu
    · refine and_assoc.1 ⟨?_, .inr ⟨op, n, hq, hn⟩⟩
      cases op with
      | step =>
        have hc := (complete_step_configured u).trans hi.configured
        exact ⟨hc.trans, .inl ⟨hc, (complete_step_fs u).trans hi.fs⟩⟩
      | configure =>
        exact ⟨fun _ => rfl, .inr ⟨n, hq, hn, rfl, congrArg Regs.sampleRate hsn⟩⟩
    · exact ⟨hi.configured.trans, .inl ⟨hi.configured, hi.fs⟩, .inl ⟨hi.coef, hi.qApplied⟩⟩

/-! ### The error bits -/

theorem resetEdge_err (p : Pins) (s : State) : (resetEdge p s).err = 0 := by
  unfold resetEdge
  split <;> rfl

section
variable {p : Pins} {s : State}

/-- ERR_BUS does not apply: the access is of the legal form and its register allows it (R267). -/
theorem busFault_false_iff : busFault p = false ↔ p.be = 0b1111#4 ∧ alignedOffset p.addr = true ∧
    ∃ r, regAt p.addr = some r ∧ ¬(p.we = true ∧ r.isReadOnly = true) := by
  unfold busFault
  cases regAt p.addr <;> simp [and_assoc]

/-- A bus fault raises ERR_BUS, and a read returns 0 (R267). -/
theorem access_busFault (s : State) (hr : p.req = true) (h : busFault p = true) :
    access p s = .next (if p.we then busErrorWrite s else busErrorRead s) := by
  by_cases hm : p.be ≠ 0b1111#4 ∨ alignedOffset p.addr = false
  · exact access_malformed s hr hm
  obtain ⟨hb, ha⟩ : p.be = 0b1111#4 ∧ alignedOffset p.addr = true := by simpa using hm
  cases hreg : regAt p.addr with
  | none =>
    have h4 : p.addr ≠ 0x004#9 := by rintro h4; rw [h4] at hreg; cases hreg
    cases hw : p.we with
    | false =>
      rw [access_read s hr hw hb ha]
      simp [execRd, memRead, accessFormOk_of_aligned ha, hreg]
    | true =>
      rw [access_write s hr hw hb ha h4]
      simp [execWr, memWrite, accessFormOk_of_aligned ha, hreg]
  | some r =>
    obtain ⟨hw, hro⟩ : p.we = true ∧ r.isReadOnly = true := by simpa [busFault, hb, ha, hreg] using h
    have h4 : p.addr ≠ 0x004#9 := by rintro h4; rw [h4] at hreg; cases hreg; cases hro
    rw [access_write s hr hw hb ha h4, ← offset_of_regAt ha hreg, execWr_offset,
      writeReg_readOnly hro, if_pos hw]

/-- The four command words of R103, and all others. -/
theorem decodeCommand_cases (w : Word) :
    (w = 0x00000000#32 ∧ decodeCommand w = .ok .nop) ∨
      (w = 0x00000001#32 ∧ decodeCommand w = .ok .step) ∨
      (w = 0x00000002#32 ∧ decodeCommand w = .ok .reset) ∨
      (w = 0x00000003#32 ∧ decodeCommand w = .ok .configure) ∨
      (3 < w.toNat ∧ decodeCommand w = .error (.illegalCommand w)) := by
  by_cases h0 : w = 0x00000000#32
  · subst h0; exact .inl ⟨rfl, rfl⟩
  by_cases h1 : w = 0x00000001#32
  · subst h1; exact .inr (.inl ⟨rfl, rfl⟩)
  by_cases h2 : w = 0x00000002#32
  · subst h2; exact .inr (.inr (.inl ⟨rfl, rfl⟩))
  by_cases h3 : w = 0x00000003#32
  · subst h3; exact .inr (.inr (.inr (.inl ⟨rfl, rfl⟩)))
  · refine .inr (.inr (.inr (.inr ⟨by bv_omega, ?_⟩)))
    simp [decodeCommand, h0, h1, h2, h3]

/-- `errorOf` on a write to CMD of the legal form (R268). -/
theorem errorOf_command (s : State) (hb : busFault p = false) (hw : p.we = true)
    (h4 : p.addr = 0x004#9) :
    errorOf p s =
      if 3 < p.wdata.toNat then some .illegalCmd
      else if p.wdata = 0x00000000#32 then none
      else if busyFlag s then some .busy
      else if p.wdata = 0x00000001#32 ∧ s.configured = false then some .notConfigured
      else if p.wdata = 0x00000003#32 ∧ fsOk s.regs.sampleRate = false then some .badFs
      else none := by
  simp [errorOf, hb, hw, h4, busyFlag_iff]

/-- A command word raises the error `errorOf` names, and where it names none no error bit changes
(R268). -/
theorem command_error {t : State} (hb : busFault p = false) (hw : p.we = true)
    (h4 : p.addr = 0x004#9) (ht : command p.wdata s = .next t) :
    (∃ e, errorOf p s = some e ∧ t = raiseError e s) ∨ (errorOf p s = none ∧ t.err = s.err) := by
  rw [errorOf_command s hb hw h4]
  obtain ⟨h, hd⟩ | ⟨h, hd⟩ | ⟨h, hd⟩ | ⟨h, hd⟩ | ⟨h, hd⟩ := decodeCommand_cases p.wdata <;>
    simp only [command, hd] at ht
  · cases ht; simp [h]
  · cases hbusy : busyFlag s <;> cases hc : s.configured <;>
      simp only [execStep, hbusy, hc] at ht <;> cases ht <;> simp [h]
  · cases hbusy : busyFlag s <;> simp only [execReset, hbusy] at ht <;> cases ht <;> simp [h]
  · cases hbusy : busyFlag s <;> cases hf : fsOk s.regs.sampleRate <;>
      simp only [execConfigure, hbusy, hf] at ht <;> cases ht <;> simp [h]
  · cases ht; simp [h]

/-- A legal access that is no command sets no error bit, and only a write to STATUS clears one (R33, R72,
R73). -/
theorem access_err_of_legal {t : State} (hr : p.req = true) (hb : busFault p = false)
    (hc : ¬(p.we = true ∧ p.addr = 0x004#9)) (ht : access p s = .next t) :
    t.err = s.err ∨ (WritesStatus p ∧ t.err = errAfterClear s.err p.wdata) := by
  obtain ⟨hbe, ha, r, hreg, hro⟩ := busFault_false_iff.1 hb
  have hoff : r.offset = p.addr := offset_of_regAt ha hreg
  cases hw : p.we with
  | false =>
    rw [access_read s hr hw hbe ha, ← hoff, execRd_offset] at ht
    cases ht
    exact .inl rfl
  | true =>
    have h4 : p.addr ≠ 0x004#9 := fun h => hc ⟨hw, h⟩
    rw [access_write s hr hw hbe ha h4, ← hoff, execWr_offset] at ht
    by_cases hs : r.isStored = true
    · rw [writeReg_stored hs] at ht
      cases ht
      exact .inl rfl
    · cases r with
      | status =>
        cases ht
        exact .inr ⟨⟨hr, hw, ⟨hbe, ha⟩, hoff.symm⟩, rfl⟩
      | cmd => exact absurd hoff.symm h4
      | _ => simp_all [Reg.isReadOnly]

/-- What a presented access does to the error bits: it raises the error `errorOf` names, or there is
none and only a write to STATUS clears bits (R262, R268). -/
theorem access_error {t : State} (hr : p.req = true) (ht : access p s = .next t) :
    (∃ e, errorOf p s = some e ∧
        t = if p.we then raiseError e s else returnData 0x00000000#32 (raiseError e s)) ∨
      (errorOf p s = none ∧
        (t.err = s.err ∨ (WritesStatus p ∧ t.err = errAfterClear s.err p.wdata))) := by
  cases hb : busFault p with
  | true =>
    rw [access_busFault s hr hb] at ht
    cases ht
    exact .inl ⟨.bus, by simp [errorOf, hb], rfl⟩
  | false =>
    by_cases hc : p.we = true ∧ p.addr = 0x004#9
    · obtain ⟨hw, h4⟩ := hc
      obtain ⟨hbe, -⟩ := busFault_false_iff.1 hb
      rw [access_command s hr hw hbe h4] at ht
      obtain ⟨e, he, rfl⟩ | ⟨he, hst⟩ := command_error hb hw h4 ht
      · exact .inl ⟨e, he, by rw [if_pos hw]⟩
      · exact .inr ⟨he, .inl hst⟩
    · have hnone : errorOf p s = none := by
        unfold errorOf
        rw [if_neg (by simp [hb]), if_neg (by simpa using hc)]
      exact .inr ⟨hnone, access_err_of_legal hr hb hc ht⟩

end

/-- What a cycle with `rst_n` high does to the error bits; a completing command leaves them alone. -/
theorem step_error {s t : State} {p : Pins} (h : step s = .next t) (hp : nextEvent s = .edge p)
    (hr : p.rstN = true) :
    (p.req = true ∧ ∃ e, errorOf p s = some e ∧ t.err = s.err ||| e.mask) ∨
      (WritesStatus p ∧ t.err = errAfterClear s.err p.wdata) ∨ t.err = s.err := by
  obtain ⟨u, hu, -, hs⟩ := step_run hp hr
  have hte : t.err = u.err := by
    rw [hs] at h
    cases h
    split
    · exact tick_err u
    · rfl
  rw [hte]
  cases hq : p.req with
  | false =>
    simp only [access, hq] at hu
    cases hu
    exact .inr (.inr rfl)
  | true =>
    obtain ⟨e, he, rfl⟩ | ⟨-, hn | hc⟩ := access_error hq hu
    · exact .inl ⟨rfl, e, he, by split <;> rfl⟩
    · exact .inr (.inr hn)
    · exact .inr (.inl hc)

/-- Settles O28: a cycle raises the error of its access, or clears what a STATUS write names, or leaves
the error bits alone; power-on reset clears them all. -/
theorem errorBitsAreSticky : Obligations.ErrorBitsAreSticky := by
  refine ⟨fun s t p k hp hr h hk hset hclear => ?_, fun s t k h hclear hset => ?_⟩
  · obtain ⟨-, e, -, he⟩ | ⟨hw, he⟩ | he := step_error h hp hr <;> rw [he] at hclear
    · simp only [BitVec.getLsbD_or, hset, Bool.true_or] at hclear
      cases hclear
    · rw [getLsbD_errAfterClear _ _ hk, hset] at hclear
      exact ⟨hw, by simpa using hclear⟩
    · rw [hset] at hclear
      cases hclear
  · have hk : k < 5 := BitVec.lt_of_getLsbD hset
    obtain ⟨p, hp, ⟨-, rfl⟩ | ⟨hr, -⟩⟩ := step_cases h
    · rw [resetEdge_err] at hset
      simp at hset
    · obtain ⟨hq, e, herr, he⟩ | ⟨-, he⟩ | he := step_error h hp hr <;> rw [he] at hset
      · rw [BitVec.getLsbD_or, hclear, Bool.false_or] at hset
        exact ⟨p, e, hp, hr, hq, herr, (getLsbD_mask e hk).1 hset⟩
      · rw [getLsbD_errAfterClear _ _ hk, hclear] at hset
        cases hset
      · rw [hclear] at hset
        cases hset

end Sys2Proof.Machine

/-!
PROOFS. The host's register transactions (20_memory.md): which accesses are access errors, what RD
and WR do at every offset, and the cycle that carries an access (R72 to R80, R230, R267).
-/

namespace Sys2Proof.Machine

/-! ### The kinds of registers and of offsets -/

/-- A write to a register is a command, a clear of error bits, a store or an access error (R73,
R76). -/
theorem Reg.write_kinds (r : Reg) :
    r = .cmd ∨ r = .status ∨ r.isStored = true ∨ r.isReadOnly = true := by
  cases r <;> simp [Reg.isStored, Reg.isReadOnly]

/-- The holes of the register map (R31, R77). -/
theorem regAt_eq_none_iff {off : Offset} (ha : alignedOffset off = true) :
    regAt off = none ↔ (off.toNat = 0x014 ∨ off.toNat = 0x018 ∨ off.toNat = 0x01C ∨
      (0x09C ≤ off.toNat ∧ off.toNat ≤ 0x0BC) ∨ (0x114 ≤ off.toNat ∧ off.toNat ≤ 0x13C)) := by
  have table : ∀ n : Fin 128, regAt (BitVec.ofNat 9 (4 * n.val)) = none ↔
      (4 * n.val = 0x014 ∨ 4 * n.val = 0x018 ∨ 4 * n.val = 0x01C ∨
        (0x09C ≤ 4 * n.val ∧ 4 * n.val ≤ 0x0BC) ∨ (0x114 ≤ 4 * n.val ∧ 4 * n.val ≤ 0x13C)) := by
    decide
  obtain ⟨n, hn, rfl⟩ := alignedOffset_word ha
  have hval : (BitVec.ofNat 9 (4 * n)).toNat = 4 * n := by
    rw [BitVec.toNat_ofNat]; exact Nat.mod_eq_of_lt (by omega)
  rw [hval]
  exact table ⟨n, hn⟩

/-- Every offset is a register's own, or an access to it is an access error (R75, R77). -/
theorem offset_cases (off : Offset) :
    (∃ r : Reg, r.offset = off) ∨ (alignedOffset off = true → regAt off = none) := by
  by_cases ha : alignedOffset off = true
  · cases h : regAt off with
    | none => exact .inr fun _ => rfl
    | some r => exact .inl ⟨r, offset_of_regAt ha h⟩
  · exact .inr fun h => absurd h ha

/-! ### RD and WR at an offset of no register -/

/-- RD at a misaligned or unmapped offset is an access error (R72, R75, R77). -/
theorem exec_rd_busError {off : Offset} (h : alignedOffset off = true → regAt off = none)
    (s : State) : exec (.rd off) s = .next (busErrorRead s) := by
  cases ha : alignedOffset off <;> simp [exec, execRd, memRead, accessFormOk, ha, h]

/-- WR at a misaligned or unmapped offset is an access error (R73, R75, R77). -/
theorem exec_wr_busError {off : Offset} (h : alignedOffset off = true → regAt off = none)
    (w : Word) (s : State) : exec (.wr off w) s = .next (busErrorWrite s) := by
  cases ha : alignedOffset off <;> simp [exec, execWr, memWrite, accessFormOk, ha, h]

/-- Settles O6: the map of the 128 word offsets has these holes, and an access to one is an access
error. -/
theorem unmappedOffsets : Obligations.UnmappedOffsets :=
  ⟨fun _ => regAt_eq_none_iff, fun _ w s _ h =>
    ⟨exec_rd_busError (fun _ => h) s, exec_wr_busError (fun _ => h) w s⟩⟩

/-! ### What a store leaves in each register of the file -/

section
variable (r : Regs) (reg : Reg) (w : Word)

theorem sampleRate_storeReg :
    (storeReg r reg w).sampleRate = if reg = .sampleRate then w else r.sampleRate := by
  cases reg with
  | knob k => cases k <;> rfl
  | input j => cases j <;> rfl
  | _ => rfl

theorem connect_storeReg :
    (storeReg r reg w).connect = if reg = .connect then legalConnect w else r.connect := by
  cases reg with
  | knob k => cases k <;> rfl
  | input j => cases j <;> rfl
  | _ => rfl

theorem knob_storeReg (k : Knob) :
    (storeReg r reg w).knob k = if reg = .knob k then legalKnob k w else r.knob k := by
  cases reg with
  | knob j =>
    rcases eq_or_ne k j with rfl | h
    · simp [storeReg, knob_setKnob]
    · simp [storeReg, knob_setKnob, h, h.symm]
  | input j => cases j <;> cases k <;> rfl
  | _ => cases k <;> rfl

theorem input_storeReg (j : Input) :
    (storeReg r reg w).input j = if reg = .input j then w else r.input j := by
  cases reg with
  | input k => simp [storeReg, input_setInput, eq_comm]
  | knob k => cases k <;> cases j <;> rfl
  | _ => cases j <;> rfl

theorem bandGain_storeReg (i : Band) :
    (storeReg r reg w).bandGain.get i =
      if reg = .bandGain i then legalBandGain w else r.bandGain.get i := by
  cases reg with
  | bandGain j => simp [storeReg, Lanes.get_set, eq_comm]
  | knob k => cases k <;> rfl
  | input j => cases j <;> rfl
  | _ => rfl

theorem insertIn_storeReg (i : Band) :
    (storeReg r reg w).insertIn.get i = if reg = .insertIn i then w else r.insertIn.get i := by
  cases reg with
  | insertIn j => simp [storeReg, Lanes.get_set, eq_comm]
  | knob k => cases k <;> rfl
  | input j => cases j <;> rfl
  | _ => rfl

end

/-- A store into one register is seen by no read of another (R73). -/
theorem regValue_store_other {r reg : Reg} (h : reg ≠ r) (w : Word) (s : State) :
    regValue { s with regs := storeReg s.regs reg w } r = regValue s r := by
  cases r with
  | sampleRate => exact (sampleRate_storeReg s.regs reg w).trans (if_neg h)
  | connect => exact (connect_storeReg s.regs reg w).trans (if_neg h)
  | knob k => exact (knob_storeReg s.regs reg w k).trans (if_neg h)
  | bandGain i => exact (bandGain_storeReg s.regs reg w i).trans (if_neg h)
  | input j => exact (input_storeReg s.regs reg w j).trans (if_neg h)
  | insertIn i => exact (insertIn_storeReg s.regs reg w i).trans (if_neg h)
  | _ => rfl

/-- Only STATUS shows the error bits (R33). -/
theorem regValue_err {r : Reg} (h : r ≠ .status) (e : BitVec 5) (s : State) :
    regValue { s with err := e } r = regValue s r := by
  cases r with
  | status => exact absurd rfl h
  | _ => rfl

/-- CONNECT keeps the low 23 bits of what is written (R43). -/
theorem legalConnect_eq_and (w : Word) : legalConnect w = w &&& 0x007FFFFF#32 := by
  apply BitVec.eq_of_toNat_eq
  have hlow : w.toNat &&& 0x007FFFFF = w.toNat % 2 ^ 23 := Nat.and_two_pow_sub_one_eq_mod w.toNat 23
  have hlt : w.toNat % 2 ^ 23 < 2 ^ 32 := by omega
  simpa [legalConnect, BitVec.extractLsb'_toNat, hlow] using hlt

/-! ### The frame of a transaction -/

/-- Everything a WR to an offset other than CMD's can do: change error bits, or store into the register
at the offset (R73). -/
theorem exec_wr_cases {off : Offset} (h4 : off ≠ 0x004#9) (w : Word) (s : State) :
    (∃ e, exec (.wr off w) s = .next { s with err := e }) ∨
      ∃ reg : Reg, reg.offset = off ∧
        exec (.wr off w) s = .next { s with regs := storeReg s.regs reg w } := by
  obtain ⟨reg, rfl⟩ | h := offset_cases off
  · obtain rfl | rfl | h | h := reg.write_kinds
    · exact absurd rfl h4
    · exact .inl ⟨_, exec_wr_offset .status w s⟩
    · exact .inr ⟨reg, rfl, exec_wr_stored h w s⟩
    · exact .inl ⟨_, (exec_wr_offset reg w s).trans (writeReg_readOnly h w s)⟩
  · exact .inl ⟨_, exec_wr_busError h w s⟩

/-- Settles O17: RD is a read of a register or an access error, WR a change of error bits or a store,
which no other register shows. -/
theorem transactionFrame : Obligations.TransactionFrame := by
  constructor
  · intro off s t ht
    obtain ⟨r, rfl⟩ | h := offset_cases off
    · rw [exec_rd_offset] at ht
      cases ht
      exact ⟨_, _, rfl, fun _ _ => rfl⟩
    · rw [exec_rd_busError h] at ht
      cases ht
      exact ⟨_, _, rfl, fun ha hmapped => absurd (h ha) hmapped⟩
  · intro off w s t h4 ht
    obtain ⟨e, he⟩ | ⟨reg, rfl, he⟩ := exec_wr_cases h4 w s <;> rw [he] at ht <;> cases ht
    · exact ⟨⟨_, _, rfl⟩, fun r _ hr => regValue_err hr e s⟩
    · refine ⟨⟨_, _, rfl⟩, fun r hr _ => regValue_store_other ?_ w s⟩
      rintro rfl
      exact hr rfl

/-- Settles O18: a write to a storing register stores, and the read then returns what was stored. -/
theorem readAfterWrite : Obligations.ReadAfterWrite := by
  intro r w s h
  refine ⟨_, _, exec_wr_stored h w s, exec_rd_offset r _, ?_, ?_, ?_, ?_, ?_, ?_⟩
  · rintro k rfl; exact (knob_storeReg s.regs _ w k).trans (if_pos rfl)
  · rintro i rfl; exact (bandGain_storeReg s.regs _ w i).trans (if_pos rfl)
  · rintro rfl; exact legalConnect_eq_and w
  · rintro rfl; rfl
  · rintro j rfl; exact (input_storeReg s.regs _ w j).trans (if_pos rfl)
  · rintro i rfl; exact (insertIn_storeReg s.regs _ w i).trans (if_pos rfl)

/-! ### Reads, read-only registers and malformed accesses -/

/-- Settles O7: a mapped aligned offset is its register's own, and a read there returns it. -/
theorem readReturnsRegister : Obligations.ReadReturnsRegister := by
  intro off r s ha h
  obtain rfl := offset_of_regAt ha h
  exact ⟨exec_rd_offset r s, by rintro rfl; exact exec_rd_offset .cmd s⟩

/-- Settles O13: a write to a read-only register is an access error; CMD reads 0. -/
theorem readOnlyWritesAreErrors : Obligations.ReadOnlyWritesAreErrors := by
  refine ⟨fun r w s h => ?_, exec_rd_offset .cmd⟩
  have hro : r.isReadOnly = true := by
    obtain rfl | rfl | rfl | rfl | rfl | rfl | ⟨i, rfl | rfl | rfl⟩ := h <;> rfl
  exact (exec_wr_offset r w s).trans (writeReg_readOnly hro w s)

/-- Settles O14: a partial access is malformed. -/
theorem partialAccessIsError : Obligations.PartialAccessIsError := fun _ s hr hb =>
  access_malformed s hr (.inl hb)

/-- Settles O15: a misaligned access is malformed, and RD and WR refuse its offset too. -/
theorem misalignedAccessIsError : Obligations.MisalignedAccessIsError := by
  refine ⟨fun p s hr ha => access_malformed s hr (.inr ha), fun off w s ha => ?_⟩
  have h : alignedOffset off = true → regAt off = none := by simp [ha]
  exact ⟨exec_rd_busError h s, exec_wr_busError h w s⟩

/-! ### Commands and whole cycles -/

/-- A form that decodes has the meaning of its instruction (R71). -/
theorem access_decoded {p : Pins} {i : Instr} (hr : p.req = true)
    (hd : decode (fetchForm p) = .ok i) (s : State) : access p s = exec i s := by
  simp [access, hr, hd]

/-- Without a request the access changes nothing (R71). -/
theorem access_absent {p : Pins} (hr : p.req = false) (s : State) : access p s = .next s := by
  simp [access, hr]

/-- A form the decoder rejects leaves its error (R263, R267). -/
theorem access_rejected {p : Pins} {r : Reject} (hr : p.req = true)
    (hd : decode (fetchForm p) = .error r) (s : State) :
    access p s = .next (rejected r p s) := by
  simp [access, hr, hd]

/-- Settles O16: WR to CMD is Command(w), and the port decodes each legal word to its command. -/
theorem cmdWriteRunsCommand : Obligations.CmdWriteRunsCommand := by
  have wr := fun w s => exec_wr_offset .cmd w s
  refine fun s => ⟨wr _ s, wr _ s, wr _ s, wr _ s, ?_⟩
  rintro i (rfl | rfl | rfl | rfl) <;> exact access_decoded rfl rfl s

/-- A cycle with `rst_n` high is its access and then one count of a command pending before it (R71,
R305; log entry 3). -/
theorem step_of_access {s t : State} {p : Pins} (hp : nextEvent s = .edge p) (hr : p.rstN = true)
    (ht : access p (dropData (popEvent s)) = .next t) :
    step s = .next (if s.seq = .idle then t else tick t) := by
  obtain ⟨u, hu, -, hs⟩ := step_run hp hr
  obtain rfl : u = t := by rw [hu] at ht; cases ht; rfl
  cases hq : s.seq <;> simp [hs, busyFlag, hq]

/-- Settles O29: the access is decoded, absent or rejected, and `step_of_access` gives the cycle. -/
theorem stepRunsDecodedInstruction : Obligations.StepRunsDecodedInstruction := by
  intro s p hp hr
  refine ⟨?_, fun t i hreq hd hx => ?_, fun hreq hq => ?_, fun hreq hq => ?_, fun r hreq hd => ?_⟩
  · obtain ⟨t, ht, -⟩ := step_run hp hr
    exact ⟨t, ht, step_of_access hp hr ht⟩
  · exact step_of_access hp hr ((access_decoded hreq hd _).trans hx)
  · exact (step_of_access hp hr (access_absent hreq _)).trans (by rw [if_pos hq]; rfl)
  · exact (step_of_access hp hr (access_absent hreq _)).trans (by rw [if_neg hq]; rfl)
  · refine ⟨_, ?_, step_of_access hp hr (access_rejected hreq hd _)⟩
    cases r with
    | illegalCommand w => rfl
    | partialAccess be => simp only [rejected]; cases p.we <;> rfl
    | misaligned off => simp only [rejected]; cases p.we <;> rfl

end Sys2Proof.Machine

/-!
PROOFS. The encodings (30_encoding.md): the encoder and the decoder give each other's forms back,
and every command word without a row in the opcode map is illegal (R102 to R104, R263).
-/

namespace Sys2Proof.Machine

/-! ### What the decoder accepts -/

/-- A transaction decodes when all its byte enables are set and its offset is a multiple of four,
and `we` then tells WR from RD (rows RD and WR; R75, R78). -/
theorem decodeTransaction_eq_ok_iff {p : BitVec 14} {w : Word} {i : Instr} :
    decodeTransaction p w = .ok i ↔
      patternBe p = 0b1111#4 ∧ alignedOffset (patternAddr p) = true ∧
        i = if patternWe p then .wr (patternAddr p) w else .rd (patternAddr p) := by
  unfold decodeTransaction
  by_cases hb : patternBe p = 0b1111#4
  · cases ha : alignedOffset (patternAddr p) <;> cases patternWe p <;> simp [hb, eq_comm]
  · simp [hb]

/-- The pattern of an aligned offset with all byte enables set decodes to its RD or WR. -/
theorem decodeTransaction_makePattern {off : Offset} (h : alignedOffset off = true) (we : Bool)
    (w : Word) :
    decodeTransaction (makePattern we 0b1111#4 off) w = .ok (if we then .wr off w else .rd off) :=
  decodeTransaction_eq_ok_iff.2 (by simp [h])

/-- A pattern with all byte enables set is made of its `we` and its offset. -/
theorem makePattern_patternAddr {p : BitVec 14} {we : Bool} (hw : patternWe p = we)
    (hb : patternBe p = 0b1111#4) : makePattern we 0b1111#4 (patternAddr p) = p := by
  rw [← hw, ← hb, makePattern_fields]

/-! ### Round trips -/

/-- Settles O1: a command by its row of the opcode map, a transaction by its pattern's fields. -/
theorem decodeOfEncode : Obligations.DecodeOfEncode := by
  intro i hwf
  cases i with
  | nop => rfl
  | step => rfl
  | reset => rfl
  | configure => rfl
  | rd off => exact decodeTransaction_makePattern hwf false 0
  | wr off w => exact decodeTransaction_makePattern hwf true w

/-- A command word that decodes is the encoding of what it decodes to (R103). -/
theorem encode_of_decodeCommand {w : Word} {i : Instr} (h : decodeCommand w = .ok i) :
    i.wf = true ∧ encode i = .command w := by
  obtain ⟨rfl, hd⟩ | ⟨rfl, hd⟩ | ⟨rfl, hd⟩ | ⟨rfl, hd⟩ | ⟨-, hd⟩ := decodeCommand_cases w <;>
    rw [hd] at h <;> cases h <;> exact ⟨rfl, rfl⟩

/-- Settles O2: a command word is its row's, and a pattern that decodes is made of its instruction's
fields; only a read leaves `wdata` out. -/
theorem encodeOfDecode : Obligations.EncodeOfDecode := by
  intro e i h
  cases e with
  | command w =>
    obtain ⟨hwf, he⟩ := encode_of_decodeCommand h
    exact ⟨hwf, .inl he⟩
  | transaction p w =>
    obtain ⟨hb, ha, rfl⟩ := decodeTransaction_eq_ok_iff.1 h
    cases hw : patternWe p with
    | true => exact ⟨ha, .inl (congrArg (Encoded.transaction · w) (makePattern_patternAddr hw hb))⟩
    | false =>
      exact ⟨ha, .inr ⟨p, w, patternAddr p, rfl, rfl,
        congrArg (Encoded.transaction · 0) (makePattern_patternAddr hw hb)⟩⟩

/-- Settles O3: the words are literal, and the decoder evaluates on them. -/
theorem tableWordsDecode : Obligations.TableWordsDecode := by
  unfold Obligations.TableWordsDecode
  decide

/-! ### Illegal command words -/

/-- A command word above 3 has no row in the opcode map (R103, R104). -/
theorem decodeCommand_illegal {w : Word} (h : 3 < w.toNat) :
    decodeCommand w = .error (.illegalCommand w) := by
  obtain ⟨rfl, -⟩ | ⟨rfl, -⟩ | ⟨rfl, -⟩ | ⟨rfl, -⟩ | ⟨-, hd⟩ := decodeCommand_cases w
  on_goal 5 => exact hd
  all_goals exact absurd h (by decide)

/-- Command(w) of an illegal word raises ERR_ILLEGAL_CMD, busy or not (R104, R263). -/
theorem command_illegal {w : Word} (h : 3 < w.toNat) (s : State) :
    command w s = .next (raiseError .illegalCmd s) := by
  simp only [command, decodeCommand_illegal h]

/-- Settles O4: no row of the opcode map has the word, and WR and the bus access are Command(w). -/
theorem illegalCommandWords : Obligations.IllegalCommandWords := by
  intro w h
  refine ⟨decodeCommand_illegal h, fun s => ?_, ?_⟩
  · exact (exec_wr_offset .cmd w s).trans (command_illegal h s)
  · rintro p s hr hw hb h4 rfl
    exact (access_command s hr hw hb h4).trans (command_illegal h s)

end Sys2Proof.Machine

/-!
PROOFS. The biquads (41_biquad.md): in a STEP every band's cascade takes one sample of its bank,
with this STEP's coefficients and the band's own history (R133, R135, R155, R156).
-/

namespace Sys2Proof.Machine

/-- The scaled input every cascade of a bank takes in a STEP (R156, R210). -/
def bankSample (b : Bank) (l : Regs) : Word :=
  match b with
  | .mod => modSample l
  | .car => carSample l

/-- The bank's input, +0.0 where it is disconnected, over 5 and times the bank's gain (R210). -/
theorem bankSample_eq (b : Bank) (l : Regs) :
    bankSample b l =
      mul32 (div32 (if l.connect.getLsbD (if b = .mod then 16 else 17)
          then (if b = .mod then l.modIn else l.carIn) else 0x00000000#32) 0x40A00000#32)
        (if b = .mod then l.modGainKnob else l.carGainKnob) := by
  cases b with
  | mod => rfl
  | car => rfl

/-- The histories CASCADE leaves: stage 0 took the sample, stage 1 the output of stage 0 (R155). -/
theorem cascade_hist (c : Stages Coef) (h : Stages Hist) (x : Word) :
    (cascade c h x).2 =
      ⟨bqShift h.s0 x (bqOutput c.s0 h.s0 x),
        bqShift h.s1 (bqOutput c.s0 h.s0 x)
          (bqOutput c.s1 h.s1 (bqOutput c.s0 h.s0 x))⟩ := by
  simp only [cascade, bqProcess]

/-- The new histories of a band are its cascade's, run once on the bank's sample with the
coefficients this STEP leaves and the histories it found (R156). -/
theorem complete_step_hist_get (s : State) (b : Bank) (i : Band) :
    ((complete .step s).hist.get b).get i =
      (cascade (((complete .step s).coef.get b).get i) ((s.hist.get b).get i)
        (bankSample b s.snap)).2 := by
  rw [complete_step_hist, complete_step_coef, stepCommit_hist]
  rfl

/-- The coefficients a STEP leaves in one band depend on its bank's applied Q, the snapshot, the
rate and that band's coefficients only (R152 to R154). -/
theorem complete_step_coef_congr {s t : State} {b : Bank} {i : Band} (hl : t.snap = s.snap)
    (hf : t.fs = s.fs) (hq : t.qApplied.get b = s.qApplied.get b)
    (hc : (t.coef.get b).get i = (s.coef.get b).get i) :
    ((complete .step t).coef.get b).get i = ((complete .step s).coef.get b).get i := by
  rw [complete_step_coef, complete_step_coef, (prepare_bank t b).2, (prepare_bank s b).2, hl, hf,
    hq]
  split
  · rfl
  · exact hc

/-- Settles O46: the new histories are the cascade's, and each of its three operands agrees. -/
theorem bandsAreIndependent : Obligations.BandsAreIndependent := by
  intro s t b i hl hf hq hc hh
  rw [complete_step_hist_get, complete_step_hist_get, complete_step_coef_congr hl hf hq hc, hh, hl]

/-- Settles O45: the two shifts of the band's cascade, whose outputs are the difference equation. -/
theorem biquadsProcessOneSample : Obligations.BiquadsProcessOneSample := by
  intro s i b
  have hist := (complete_step_hist_get s b i).trans (cascade_hist _ _ _)
  exact ⟨bankSample b s.snap, _, _, _, _, _, _, bankSample_eq b s.snap, rfl, rfl, rfl, rfl, rfl,
    rfl, congrArg Stages.s0 hist, congrArg Stages.s1 hist⟩

end Sys2Proof.Machine

/-!
PROOFS. The shared Q of a filter bank (42_filter_bank.md): its clamped target (R150, R151), and the
hysteresis by which a STEP applies the target to the whole bank or leaves the bank alone (R152 to R154).
-/

namespace Sys2Proof.Machine

/-! ### The target -/

/-- A disconnected carrier control voltage contributes +0.0 (R151). -/
theorem qCv_car_disconnected {l : Regs} (h : carqCvConn l = false) :
    qCv .car l = 0x00000000#32 := by
  simp [qCv, h, zero32]

/-- So does a disconnected modulator control voltage (R151). -/
theorem qCv_mod_disconnected {l : Regs} (h : modqCvConn l = false) :
    qCv .mod l = 0x00000000#32 := by
  simp [qCv, h, zero32]

/-- A value of the Q range is positive: no -0, which adding +0.0 would turn into +0. -/
theorem isNeg_of_qRange {q : Word} (h : inRange qMin qMax q) : isNeg q = false := by
  obtain ⟨-, hlo, -⟩ := h
  have hmin : 0 ≤ totalKey qMin := by decide
  exact (isNeg_iff_totalKey q).2 (hmin.trans hlo)

/-- Without a control-voltage contribution a legal knob is the target (R150, R151). -/
theorem qTarget_eq_qKnob {b : Bank} {l : Regs} (hk : inRange qMin qMax (qKnob b l))
    (hcv : qCv b l = 0x00000000#32) : qTarget b l = qKnob b l := by
  have ⟨hn, hlo, hhi⟩ := hk
  unfold qTarget
  rw [hcv, add32_zero hn (.inr (isNeg_of_qRange hk))]
  exact clamp32_id hn (by decide) (by decide) hlo hhi

/-- Settles O43: the target is a clamp by definition, its range is the clamp's, and a disconnected
control voltage leaves the knob. -/
theorem qTargetIsClamped : Obligations.QTargetIsClamped :=
  ⟨Config.params.carqCv_le, Config.params.modqCv_le, fun l => ⟨rfl, rfl, fun b => qTarget_range b l,
    fun hk hc => qTarget_eq_qKnob hk (qCv_car_disconnected hc),
    fun hk hc => qTarget_eq_qKnob hk (qCv_mod_disconnected hc)⟩⟩

/-! ### The update -/

/-- Where the hysteresis test passes, the STEP applies the target and rebuilds the bank (R153). -/
theorem complete_step_bank_update {s : State} {b : Bank}
    (h : qHystTest (s.qApplied.get b) (qTarget b s.snap) = true) :
    (complete .step s).qApplied.get b = qTarget b s.snap ∧
      (complete .step s).coef.get b = bankCoef s.fs (qTarget b s.snap) := by
  obtain ⟨hq, hc⟩ := prepare_bank s b
  rw [if_pos h] at hq hc
  rw [complete_step_qApplied, complete_step_coef]
  exact ⟨hq, hc⟩

/-- Where it fails, the STEP keeps the bank's applied Q and its coefficients (R153). -/
theorem complete_step_bank_keep {s : State} {b : Bank}
    (h : qHystTest (s.qApplied.get b) (qTarget b s.snap) = false) :
    (complete .step s).qApplied.get b = s.qApplied.get b ∧
      (complete .step s).coef.get b = s.coef.get b := by
  obtain ⟨hq, hc⟩ := prepare_bank s b
  rw [if_neg (Bool.eq_false_iff.1 h)] at hq hc
  rw [complete_step_qApplied, complete_step_coef]
  exact ⟨hq, hc⟩

/-- Settles O44: both outcomes of the hysteresis test, with every record of an updated bank read. -/
theorem qUpdatesWithHysteresis : Obligations.QUpdatesWithHysteresis := by
  intro s b
  refine ⟨fun h => ?_, complete_step_bank_keep⟩
  obtain ⟨hq, hc⟩ := complete_step_bank_update h
  refine ⟨hq, fun i st => ?_⟩
  rw [hc]
  exact bankCoef_get s.fs (qTarget b s.snap) i st

end Sys2Proof.Machine

/-!
PROOFS. The envelope followers (43_envelope.md): the slew controls and their rates (R170 to R172), and
the attack, decay and hold branches with their clamps at the peak (R173 to R178).
-/

namespace Sys2Proof.Machine

/-! ### Order of sums and products -/

theorem isNaN_of_finite {w : Word} (h : isFinite w = true) : isNaN w = false := by
  simp [isFinite, isNaN] at *; omega

theorem isInf_of_finite {w : Word} (h : isFinite w = true) : isInf w = false := by
  simp [isFinite, isInf] at *; omega

/-- The order that separates the two zeros refines the order of the comparisons (R18, R19). -/
theorem orderKey_mono {a b : Word} (h : totalKey a ≤ totalKey b) : orderKey a ≤ orderKey b := by
  unfold totalKey at h; unfold orderKey
  cases ha : isNeg a <;> cases hb : isNeg b <;>
    simp only [ha, hb, if_true, if_false, Bool.false_eq_true] at h ⊢ <;> omega

/-- A value further up the number line is a larger signed number of units. -/
theorem signedUnits_mono {a b : Word} (h : orderKey a ≤ orderKey b) :
    signedUnits a ≤ signedUnits b := by
  unfold orderKey at h; unfold signedUnits
  cases ha : isNeg a <;> cases hb : isNeg b <;>
    simp only [ha, hb, if_true, if_false, Bool.false_eq_true] at h ⊢
  · exact_mod_cast units_mono (by omega)
  · rw [units_zero (w := a) (by omega), units_zero (w := b) (by omega)]; rfl
  · omega
  · have := units_mono (a := b) (b := a) (by omega); omega

/-- Where a rounded amount stands on the number line: at its rounded magnitude, with its sign. -/
theorem orderKey_roundSigned (b : Bool) (z : Int) :
    orderKey (roundSigned b z) =
      if z < 0 then -(roundUnits z.natAbs 1 : Int) else roundUnits z.natAbs 1 := by
  unfold roundSigned
  split
  · next hz => subst hz; cases b <;> decide
  · simp [orderKey, magBits_pack_round]

/-- Rounding is monotone, whatever sign an exact zero takes. -/
theorem orderKey_roundSigned_mono (b b' : Bool) {z z' : Int} (h : z ≤ z') :
    orderKey (roundSigned b z) ≤ orderKey (roundSigned b' z') := by
  rw [orderKey_roundSigned, orderKey_roundSigned]
  split <;> split
  · have := roundUnits_mono (den := 1) (show z'.natAbs ≤ z.natAbs by omega); omega
  · omega
  · omega
  · have := roundUnits_mono (den := 1) (show z.natAbs ≤ z'.natAbs by omega); omega

theorem add32_nan {a b : Word} (h : isNaN b = true) : add32 a b = qNaN := by simp [add32, h]

theorem add32_of_finite {a b : Word} (ha : isFinite a = true) (hb : isFinite b = true) :
    add32 a b = roundSigned (isNeg a && isNeg b) (signedUnits a + signedUnits b) := by
  simp [add32, isNaN_of_finite, isInf_of_finite, ha, hb]

theorem mul32_of_finite {a b : Word} (ha : isFinite a = true) (hb : isFinite b = true) :
    mul32 a b = pack (isNeg a != isNeg b) (roundUnits (units a * units b) unitsPerOne) := by
  simp [mul32, isNaN_of_finite, isInf_of_finite, ha, hb]

/-- Addition of finite values is monotone in both operands. -/
theorem orderKey_add32_mono {a a' b b' : Word} (fa : isFinite a = true) (fa' : isFinite a' = true)
    (fb : isFinite b = true) (fb' : isFinite b' = true) (ha : orderKey a ≤ orderKey a')
    (hb : orderKey b ≤ orderKey b') : orderKey (add32 a b) ≤ orderKey (add32 a' b') := by
  rw [add32_of_finite fa fb, add32_of_finite fa' fb']
  exact orderKey_roundSigned_mono _ _ (add_le_add (signedUnits_mono ha) (signedUnits_mono hb))

/-- Multiplication by a finite value that is not negative is monotone on such values. -/
theorem ge32_mul32_mono {c a b : Word} (fc : isFinite c = true) (fa : isFinite a = true)
    (fb : isFinite b = true) (nc : isNeg c = false) (na : isNeg a = false) (nb : isNeg b = false)
    (h : orderKey b ≤ orderKey a) : ge32 (mul32 c a) (mul32 c b) = true := by
  rw [orderKey_of_pos na, orderKey_of_pos nb] at h
  have hu : units c * units b ≤ units c * units a := Nat.mul_le_mul_left _ (units_mono (by omega))
  have hn : ∀ n, isNaN (pack false (roundUnits n unitsPerOne)) = false := fun n =>
    isNaN_of_magBits (by rw [magBits_pack_round]; exact roundUnits_le _ _)
  rw [mul32_of_finite fc fa, mul32_of_finite fc fb, nc, na, nb, bne_self_eq_false, ge32_iff]
  refine ⟨hn _, hn _, ?_⟩
  rw [orderKey_of_pos (isNeg_pack _ _), orderKey_of_pos (isNeg_pack _ _), magBits_pack_round,
    magBits_pack_round]
  exact_mod_cast roundUnits_mono hu

/-! ### The slew controls -/

/-- The knob register of a slew control (R171). -/
def slewKnobReg : Slew → Knob
  | .attack => .attack
  | .decay => .decay

theorem slewKnob_eq (w : Slew) (l : Regs) :
    slewKnob w l = add32 (l.knob (slewKnobReg w)) (slewCv w l) := by
  cases w <;> rfl

theorem slewKnobReg_bounds (w : Slew) :
    (slewKnobReg w).lo = 0x00000000#32 ∧ (slewKnobReg w).hi = 0x3E800000#32 := by
  cases w <;> exact ⟨rfl, rfl⟩

/-- The control of a legal register file lies in [-0.25, 0.5]: the sum is monotone, and its bounds are
the sums of the knob's bounds and the control voltage's (R171). -/
theorem slewKnob_range (w : Slew) {l : Regs} (h : RegsLegal l) :
    le32 0xBE800000#32 (slewKnob w l) = true ∧ le32 (slewKnob w l) 0x3F000000#32 = true := by
  obtain ⟨-, klo, khi⟩ := h.knobs (slewKnobReg w)
  rw [(slewKnobReg_bounds w).1] at klo
  rw [(slewKnobReg_bounds w).2] at khi
  obtain ⟨clo, chi⟩ := slewCv_range w l
  have fk : isFinite (l.knob (slewKnobReg w)) = true :=
    finite_of_range klo khi (by decide) (by decide)
  have fc : isFinite (slewCv w l) = true := finite_of_range clo chi (by decide) (by decide)
  have lo : add32 0x00000000#32 slewCvLimNeg = 0xBE800000#32 := by decide
  have hi : add32 0x3E800000#32 slewCvLim = 0x3F000000#32 := by decide
  have hn := isNaN_of_finite (slewKnob_finite w h)
  refine ⟨ge32_iff.2 ⟨hn, by decide, ?_⟩, ge32_iff.2 ⟨by decide, hn, ?_⟩⟩
  · rw [← lo, slewKnob_eq]
    exact orderKey_add32_mono (by decide) fk (by decide) fc (orderKey_mono klo) (orderKey_mono clo)
  · rw [← hi, slewKnob_eq]
    exact orderKey_add32_mono fk (by decide) fc (by decide) (orderKey_mono khi) (orderKey_mono chi)

/-- Without a control-voltage contribution the control of a legal register file is its knob, which is
never -0. -/
theorem slewKnob_eq_knob {w : Slew} {l : Regs} (h : RegsLegal l) (hcv : slewCv w l = 0x00000000#32) :
    slewKnob w l = l.knob (slewKnobReg w) := by
  obtain ⟨hn, klo, -⟩ := h.knobs (slewKnobReg w)
  rw [(slewKnobReg_bounds w).1] at klo
  rw [slewKnob_eq, hcv]
  exact add32_zero hn (.inr ((isNeg_iff_totalKey _).2 klo))

theorem slewCv_attack_disconnected {l : Regs} (h : attackCvConn l = false) :
    slewCv .attack l = 0x00000000#32 := by
  simp [slewCv, h, zero32]

theorem slewCv_decay_disconnected {l : Regs} (h : decayCvConn l = false) :
    slewCv .decay l = 0x00000000#32 := by
  simp [slewCv, h, zero32]

/-- Settles O60: the sum is SLEW_KNOB's definition; legal operands bound it, and +0.0 drops out of it. -/
theorem slewKnobIsKnobPlusClampedCv : Obligations.SlewKnobIsKnobPlusClampedCv := fun _ =>
  ⟨rfl, rfl, fun h => ⟨fun w => slewKnob_range w h,
    fun hc => slewKnob_eq_knob h (slewCv_attack_disconnected hc),
    fun hc => slewKnob_eq_knob h (slewCv_decay_disconnected hc)⟩⟩

/-! ### The slew rates -/

/-- A zero control, of either sign, gives MAX_SLEW (law POW0). -/
theorem slewRate_zero {a : Word} (h : isZero a = true) : slewRate a = 0x43FA0000#32 := by
  have hp : slewPow slewBase a = 0x3F800000#32 := Config.params.pow0 slewBase a h
  rw [slewRate, hp]; decide

/-- The control 1.0 gives MIN_SLEW (law POW1). -/
theorem slewRate_one : slewRate 0x3F800000#32 = 0x3A83126F#32 := by
  have hp : slewPow slewBase 0x3F800000#32 = slewBase := Config.params.pow1 slewBase
  rw [slewRate, hp]; decide

/-- The power of a finite control is finite and positive (law POWPOS). -/
theorem slewPow_pos {a : Word} (h : isFinite a = true) :
    isFinite (slewPow slewBase a) = true ∧ isNeg (slewPow slewBase a) = false := by
  obtain ⟨-, fb, pb, -⟩ := slewBase_facts
  obtain ⟨hf, hp⟩ := Config.params.powPos slewBase a fb pb h
  obtain ⟨-, -, hk⟩ := lt32_iff.1 hp
  exact ⟨hf, isNeg_of_orderKey_pos hk⟩

/-- The rate does not increase with the control (law POWMONO). -/
theorem slewRate_antitone {a a' : Word} (fa : isFinite a = true) (fa' : isFinite a' = true)
    (h : le32 a a' = true) : ge32 (slewRate a) (slewRate a') = true := by
  obtain ⟨-, -, pb, lb⟩ := slewBase_facts
  obtain ⟨-, -, hk⟩ := ge32_iff.1 (Config.params.powMono slewBase a a' pb lb h)
  obtain ⟨f, n⟩ := slewPow_pos fa
  obtain ⟨f', n'⟩ := slewPow_pos fa'
  exact ge32_mul32_mono (by decide) f f' (by decide) n n' hk

/-- Settles O50: one law of SLEW_POW for each value, and POWMONO for the order. -/
theorem slewRateBounds : Obligations.SlewRateBounds :=
  ⟨slewRate_zero (by decide), slewRate_zero (by decide), slewRate_one,
    fun _ _ => slewRate_antitone⟩

/-- The rate with the base of R172 as a number. -/
theorem slewRate_eq (a : Word) :
    slewRate a = mul32 0x43FA0000#32 (Config.params.slewPow 0x360637BD#32 a) := by
  rw [slewRate, slewBase_facts.1]; rfl

/-! ### The three branches -/

section Branches
variable {c p rAtt rDec fs : Word}

theorem envNext_rise (h : gt32 p c = true) : envNext c p rAtt rDec fs = envAttack c p rAtt fs := by
  simp [envNext, h]

theorem envNext_fall (h : lt32 p c = true) : envNext c p rAtt rDec fs = envDecay c p rDec fs := by
  have hg : gt32 p c = false := by
    obtain ⟨-, -, hk⟩ := lt32_iff.1 h
    simp [gt32, lt32, hk.le]
  simp [envNext, h, hg]

theorem envNext_hold (hg : gt32 p c = false) (hl : lt32 p c = false) :
    envNext c p rAtt rDec fs = c := by
  simp [envNext, hg, hl]

/-- A NaN peak is neither above nor below the envelope (R175). -/
theorem envNext_nan (h : isNaN p = true) : envNext c p rAtt rDec fs = c :=
  envNext_hold (by simp [gt32, lt32, h]) (by simp [lt32, h])

end Branches

/-- The peak of a band in a STEP, read off the history its cascade leaves (R176). -/
theorem complete_step_peak_get (s : State) (i : Band) :
    (complete .step s).peak.get i = abs32 ((((complete .step s).hist.get .mod).get i).s1).y1 := by
  rw [complete_step_hist_get, ← cascade_out, complete_step_peak, complete_step_coef]
  exact stepCommit_peak s i

theorem complete_step_peak_nonneg (s : State) (i : Band) :
    isNeg ((complete .step s).peak.get i) = false := by
  rw [complete_step_peak_get]; exact isNeg_abs32 _

/-- The envelope of a band in a STEP (R173 to R175). -/
theorem complete_step_env_get (s : State) (i : Band) :
    (complete .step s).env.get i =
      envNext (s.env.get i) ((complete .step s).peak.get i) (slewRate (slewKnob .attack s.snap))
        (slewRate (slewKnob .decay s.snap)) s.fs := by
  rw [complete_step_env, complete_step_peak]
  exact stepCommit_env s i

/-- The envelope output of a band in a STEP (R211). -/
theorem complete_step_envOut_get (s : State) (i : Band) :
    (complete .step s).envOut.get i = envOutOf ((complete .step s).env.get i) := by
  rw [complete_step_envOut, complete_step_env]
  exact stepCommit_envOut s i

/-- Settles O47: the band's new peak, envelope and output, with one lemma for each branch. -/
theorem envelopesFollowThePeaks : Obligations.EnvelopesFollowThePeaks := by
  intro s i
  have env := complete_step_env_get s i
  rw [slewRate_eq, slewRate_eq] at env
  exact ⟨_, _, _, _, _, complete_step_peak_get s i, rfl, rfl, rfl, rfl, rfl,
    complete_step_envOut_get s i, fun h => env.trans (envNext_rise h),
    fun h => env.trans (envNext_fall h), fun hg hl => env.trans (envNext_hold hg hl),
    fun h => env.trans (envNext_nan h)⟩

/-! ### The bounds of a step -/

section Bounds
variable {c p rate fs : Word}

/-- A rising envelope does not fall and does not pass the peak (R173). -/
theorem envAttack_between (nc : isNeg c = false) (np : isNeg p = false) (nr : isNeg rate = false)
    (nf : isNeg fs = false) (h : lt32 c p = true) :
    orderKey c ≤ orderKey (envAttack c p rate fs) ∧
      orderKey (envAttack c p rate fs) ≤ orderKey p := by
  obtain ⟨hc, hp, hk⟩ := lt32_iff.1 h
  have nd : isNeg (slewDelta rate (sub32 p c) fs) = false :=
    isNeg_slewDelta nr (isNeg_gap np nc hk.le) nf
  obtain ⟨hn, hle, he⟩ := minnum_spec (add32 c (slewDelta rate (sub32 p c) fs)) hp
  refine ⟨?_, orderKey_mono hle⟩
  unfold envAttack
  rcases he with e | e
  · rw [e] at hn ⊢
    have hd : isNaN (slewDelta rate (sub32 p c) fs) = false := by
      refine Bool.eq_false_iff.2 fun hd => ?_
      rw [add32_nan hd] at hn; cases hn
    exact (le_add32 hc hd nc nd).2
  · rw [e]; exact hk.le

/-- A falling envelope does not rise and does not pass the peak (R174). -/
theorem envDecay_between (nc : isNeg c = false) (np : isNeg p = false) (nr : isNeg rate = false)
    (nf : isNeg fs = false) (h : lt32 p c = true) :
    orderKey p ≤ orderKey (envDecay c p rate fs) ∧
      orderKey (envDecay c p rate fs) ≤ orderKey c := by
  obtain ⟨hp, hc, hk⟩ := lt32_iff.1 h
  have nd : isNeg (slewDelta rate (sub32 c p) fs) = false :=
    isNeg_slewDelta nr (isNeg_gap nc np hk.le) nf
  obtain ⟨hn, hle, he⟩ := maxnum_spec (sub32 c (slewDelta rate (sub32 c p) fs)) hp
  refine ⟨orderKey_mono hle, ?_⟩
  unfold envDecay
  rcases he with e | e
  · rw [e] at hn ⊢; exact sub32_le hc nc nd hn
  · rw [e]; exact hk.le

/-- An envelope not above the peak moves up to it at most, or holds (R178). -/
theorem envNext_between_up {rDec : Word} (nc : isNeg c = false) (np : isNeg p = false)
    (nr : isNeg rate = false) (nf : isNeg fs = false) (h : le32 c p = true) :
    orderKey c ≤ orderKey (envNext c p rate rDec fs) ∧
      orderKey (envNext c p rate rDec fs) ≤ orderKey p := by
  obtain ⟨-, -, hk⟩ := ge32_iff.1 h
  cases hg : gt32 p c with
  | true => rw [envNext_rise hg]; exact envAttack_between nc np nr nf hg
  | false =>
    have hl : lt32 p c = false := by simp [lt32, hk]
    rw [envNext_hold hg hl]
    exact ⟨le_rfl, hk⟩

/-- An envelope not below the peak moves down to it at most, or holds (R178). -/
theorem envNext_between_down {rAtt : Word} (nc : isNeg c = false) (np : isNeg p = false)
    (nr : isNeg rate = false) (nf : isNeg fs = false) (h : ge32 c p = true) :
    orderKey p ≤ orderKey (envNext c p rAtt rate fs) ∧
      orderKey (envNext c p rAtt rate fs) ≤ orderKey c := by
  obtain ⟨-, -, hk⟩ := ge32_iff.1 h
  cases hl : lt32 p c with
  | true => rw [envNext_fall hl]; exact envDecay_between nc np nr nf hl
  | false =>
    have hg : gt32 p c = false := by simp [gt32, lt32, hk]
    rw [envNext_hold hg hl]
    exact ⟨hk, le_rfl⟩

end Bounds

/-- Settles O48: both bounds hold of ENV_UPDATE, and a legal snapshot's rates are not negative. -/
theorem envelopesDoNotOvershoot : Obligations.EnvelopesDoNotOvershoot := by
  intro s i hl hf hc nc hp
  have nr := fun w => isNeg_slewRate (slewKnob_finite w hl)
  obtain ⟨nf, -⟩ := fsOk_pos hf
  have np := complete_step_peak_nonneg s i
  rw [complete_step_env_get]
  obtain ⟨he, -⟩ := envNext_range (rDec := slewRate (slewKnob .decay s.snap)) hc nc np
    (nr .attack) nf
  constructor
  · intro h
    obtain ⟨lo, hi⟩ := envNext_between_up nc np (nr .attack) nf h
    exact ⟨ge32_iff.2 ⟨he, hc, lo⟩, ge32_iff.2 ⟨hp, he, hi⟩⟩
  · intro h
    obtain ⟨lo, hi⟩ := envNext_between_down nc np (nr .decay) nf h
    exact ⟨ge32_iff.2 ⟨hc, he, hi⟩, ge32_iff.2 ⟨he, hp, lo⟩⟩

/-! ### Recovery from +inf -/

@[simp] theorem isInf_inf32 (neg : Bool) : isInf (inf32 neg) = true := by simp [isInf]

/-- Subtracting a finite value from +inf leaves +inf (R16). -/
theorem sub32_inf_finite {p : Word} (h : isFinite p = true) :
    sub32 (inf32 false) p = inf32 false := by
  simp [sub32, add32, isNaN_of_finite h, isInf_of_finite h]

/-- A value that is not negative times +inf is +inf, or a NaN (R16, R17). -/
theorem mul32_inf {x : Word} (h : isNeg x = false) :
    mul32 x (inf32 false) = qNaN ∨ mul32 x (inf32 false) = inf32 false := by
  simp only [mul32, h, isInf_inf32, isNeg_inf32, Bool.or_true, if_true, bne_self_eq_false]
  split
  · exact .inl rfl
  · split
    · exact .inl rfl
    · exact .inr rfl

/-- +inf over a finite value that is not negative is +inf (R16). -/
theorem div32_inf {f : Word} (ff : isFinite f = true) (nf : isNeg f = false) :
    div32 (inf32 false) f = inf32 false := by
  simp [div32, isNaN_of_finite ff, isInf_of_finite ff, nf]

/-- The movement at a gap of +inf is +inf, or a NaN where rate * 0.1 is a zero or a NaN (R174 (b)). -/
theorem slewDelta_inf {rate fs : Word} (nr : isNeg rate = false) (ff : isFinite fs = true)
    (nf : isNeg fs = false) :
    slewDelta rate (inf32 false) fs = qNaN ∨ slewDelta rate (inf32 false) fs = inf32 false := by
  unfold slewDelta
  rcases mul32_inf (isNeg_mul32 nr (show isNeg shapeScale = false by decide)) with e | e
  · left; rw [e]; simp [div32]
  · right; rw [e]; exact div32_inf ff nf

/-- An envelope at +inf falls to a finite peak: subtracting either movement from +inf is a NaN, and the
clamp from below then returns the peak (R174 (b)). -/
theorem envDecay_inf {p rate fs : Word} (fp : isFinite p = true) (nr : isNeg rate = false)
    (ff : isFinite fs = true) (nf : isNeg fs = false) : envDecay (inf32 false) p rate fs = p := by
  have hd : sub32 (inf32 false) (slewDelta rate (inf32 false) fs) = qNaN := by
    rcases slewDelta_inf nr ff nf with e | e <;> rw [e] <;> decide
  simp [envDecay, sub32_inf_finite fp, hd, maxnum, isNaN_of_finite fp]

/-- A finite value lies below +inf. -/
theorem lt32_inf {p : Word} (fp : isFinite p = true) (np : isNeg p = false) :
    lt32 p (inf32 false) = true := by
  refine lt32_iff.2 ⟨isNaN_of_finite fp, isNaN_inf32 false, ?_⟩
  rw [orderKey_of_pos np, orderKey_of_pos (isNeg_inf32 false), magBits_inf32]
  exact_mod_cast of_decide_eq_true fp

/-- Settles O49: a finite peak lies below +inf, so the decay branch is taken. -/
theorem infiniteEnvelopeRecovers : Obligations.InfiniteEnvelopeRecovers := by
  intro s i hl hf hc fp
  obtain ⟨nf, ff⟩ := fsOk_pos hf
  have hinf : s.env.get i = inf32 false := hc.trans (by decide)
  rw [complete_step_env_get, hinf, envNext_fall (lt32_inf fp (complete_step_peak_nonneg s i))]
  exact envDecay_inf fp (isNeg_slewRate (slewKnob_finite .decay hl)) ff nf

end Sys2Proof.Machine

/-!
PROOFS. The band router (44_router.md): the band offset from its knob and control voltage (R190 to R193),
the rotation (R194), and the routed coefficient, which reads an insert register only where it is
connected (R195 to R198).
-/

namespace Sys2Proof.Machine

/-! ### The band offset -/

/-- Settles O38: the offset a STEP stores is the wrapped raw offset, as an int32. -/
theorem bandOffsetWraps : Obligations.BandOffsetWraps := by
  intro s
  rw [complete_step_bandOffset, toInt_bofsWrap]
  exact ⟨rfl, bofsWrap_range (bofsRaw s.snap)⟩

theorem truncSat_nan {x : Word} (h : isNaN x = true) : truncSat x = 0 := by simp [truncSat, h]

/-- Truncation stays within `n` of zero for a value of magnitude below `n + 1` (R20). -/
theorem natAbs_truncSat_le {x : Word} {n : Nat} (hf : isFinite x = true)
    (hu : units x < (n + 1) * unitsPerOne) : (truncSat x).natAbs ≤ n := by
  have ht : units x / unitsPerOne ≤ n :=
    Nat.le_of_lt_succ (Nat.div_lt_of_lt_mul (by rwa [Nat.mul_comm]))
  simp only [truncSat, isNaN_of_finite hf, isInf_of_finite hf, Bool.false_eq_true, if_false]
  generalize units x / unitsPerOne = t at ht ⊢
  split <;> omega

/-- The magnitude of a knob between -15.5 and 15.5 is at most that of 15.5 (R13, R42). -/
theorem magBits_le_of_bofsRange {v : Word} (h : inRange 0xC1780000#32 0x41780000#32 v) :
    magBits v ≤ magBits 0x41780000#32 := by
  obtain ⟨-, hlo, hhi⟩ := h
  have hm : magBits 0x41780000#32 = 0x41780000 := by decide
  have klo : totalKey 0xC1780000#32 = -0x41780001 := by decide
  have khi : totalKey 0x41780000#32 = 0x41780000 := by decide
  have kv : totalKey v = if isNeg v then -(magBits v : Int) - 1 else magBits v := rfl
  split at kv <;> omega

/-- A legal band-offset knob alone gives an offset of at most 15 either way (R190). -/
theorem natAbs_truncSat_bofsKnob {v : Word} (h : inRange 0xC1780000#32 0x41780000#32 v) :
    (truncSat v).natAbs ≤ 15 := by
  have hm := magBits_le_of_bofsRange h
  have hfin : magBits 0x41780000#32 < 0x7F800000 := by decide
  have hu : units 0x41780000#32 < (15 + 1) * unitsPerOne := by decide
  exact natAbs_truncSat_le (decide_eq_true (hm.trans_lt hfin)) ((units_mono hm).trans_lt hu)

/-- The binary32 of an integer is finite where some finite word is at least as large (R20). -/
theorem isFinite_f32OfInt {n : Int} {w : Word} (hw : isFinite w = true)
    (h : n.natAbs * unitsPerOne ≤ units w) : isFinite (f32OfInt n) = true := by
  unfold f32OfInt roundSigned
  split
  · decide
  · have hr := roundUnits_mono (den := 1) h
    rw [roundUnits_units hw] at hr
    rw [isFinite, decide_eq_true_eq, magBits_pack_round, Int.natAbs_mul, Int.natAbs_natCast]
    exact hr.trans_lt (of_decide_eq_true hw)

/-- An infinity absorbs a finite addend (R16). -/
theorem add32_finite_inf {a : Word} (h : isFinite a = true) (neg : Bool) :
    add32 a (inf32 neg) = inf32 neg := by
  simp [add32, isNaN_of_finite h, isInf_of_finite h]

theorem bofsRaw_disconnected {l : Regs} (h : bofsCvConn l = false) :
    bofsRaw l = truncSat l.bofsKnob := by
  simp [bofsRaw, h]

theorem bofsRaw_connected {l : Regs} (h : bofsCvConn l = true) :
    bofsRaw l = truncSat (add32 (f32OfInt (truncSat l.bofsKnob)) l.bofsCv) := by
  simp [bofsRaw, h]

/-- A connected infinite control voltage saturates the raw offset, for a legal knob (R190). -/
theorem bofsRaw_inf {l : Regs} (hk : inRange 0xC1780000#32 0x41780000#32 l.bofsKnob)
    (hc : bofsCvConn l = true) {neg : Bool} (hcv : l.bofsCv = inf32 neg) :
    bofsRaw l = if neg then -2147483648 else 2147483647 := by
  have hfin : isFinite 0x41700000#32 = true := by decide
  have h15 : 15 * unitsPerOne ≤ units 0x41700000#32 := by decide
  have hf := isFinite_f32OfInt hfin
    ((Nat.mul_le_mul_right unitsPerOne (natAbs_truncSat_bofsKnob hk)).trans h15)
  rw [bofsRaw_connected hc, hcv, add32_finite_inf hf]
  simp [truncSat]

/-- Settles O39: the knob alone, and a connected control voltage that is a NaN or an infinity. -/
theorem bandOffsetFromKnobAndCv : Obligations.BandOffsetFromKnobAndCv := by
  intro l hk
  have hrange := natAbs_truncSat_bofsKnob hk
  refine ⟨by omega, bofsRaw_disconnected, fun hc => ⟨bofsRaw_connected hc, fun hn => ?_,
    fun hi => bofsRaw_inf (neg := false) hk hc (hi.trans (by decide)),
    fun hi => bofsRaw_inf (neg := true) hk hc (hi.trans (by decide))⟩⟩
  rw [bofsRaw_connected hc, add32_nan hn]
  exact truncSat_nan isNaN_qNaN

/-! ### The rotation -/

/-- ROT(i) is the residue of i + S.bandOffset in [0, 16) (R20, R194). -/
theorem rot_val (s : State) (i : Band) :
    ((rot s i).val : Int) = ((i.val : Int) + s.bandOffset.toInt) % 16 :=
  Int.toNat_of_nonneg (Int.emod_nonneg _ (by decide))

theorem rot_injective (s : State) : Function.Injective (rot s) := by
  intro i j h
  have hi := rot_val s i
  have hj := rot_val s j
  rw [h] at hi
  exact Fin.ext (by omega)

/-- Settles O40: the rotation of the sixteen bands is injective. -/
theorem rotationIsABijection : Obligations.RotationIsABijection := fun s =>
  ⟨Finite.injective_iff_bijective.1 (rot_injective s), rot_val s⟩

/-! ### The routed coefficient -/

theorem route_connected {s : State} {i : Band} (h : insertConn s.snap (rot s i) = true) :
    route s i = div32 (s.snap.insertIn.get (rot s i)) norm := by
  simp [route, h]

theorem route_disconnected {s : State} {i : Band} (h : insertConn s.snap (rot s i) = false) :
    route s i = s.env.get (rot s i) := by
  simp [route, h]

/-- With offset 3 the rotated index is (i + 3) mod 16, which is addition of bands (R194, R198). -/
theorem rot_offset_three {s : State} (h : s.bandOffset.toInt = 3) (i : Band) : rot s i = i + 3 := by
  have hr := rot_val s i
  rw [h] at hr
  apply Fin.ext
  rw [Fin.val_add]
  change (rot s i).val = (i.val + 3) % 16
  omega

/-- Settles O41: the two cases of the connection bit, the second at offset 3 too. -/
theorem routeInsertOrEnvelope : Obligations.RouteInsertOrEnvelope := by
  intro s i
  refine ⟨route_connected, route_disconnected, fun h3 hc => ?_⟩
  rw [route_disconnected (hc (rot s i)), rot_offset_three h3]

/-! ### A disconnected insert -/

/-- The state whose snapshot holds `v` in one insert register. -/
def withInsert (i : Band) (v : Word) (s : State) : State :=
  { s with snap := { s.snap with insertIn := s.snap.insertIn.set i v } }

section
variable (i : Band) (v : Word) (s : State)

theorem qUpdate_withInsert (b : Bank) (t : Word) :
    qUpdate b t (withInsert i v s) = withInsert i v (qUpdate b t s) := by
  cases hq : qHystTest (s.qApplied.get b) t with
  | false => rw [qUpdate_fail s hq, qUpdate_fail (withInsert i v s) hq]
  | true => rw [qUpdate_pass s hq, qUpdate_pass (withInsert i v s) hq]; rfl

theorem prepare_withInsert : prepare (withInsert i v s) = withInsert i v (prepare s) := by
  have hb : bofsStep (withInsert i v s) = withInsert i v (bofsStep s) := rfl
  have ht : ∀ b, qTarget b (withInsert i v s).snap = qTarget b s.snap := fun b => by
    cases b <;> rfl
  simp only [prepare, hb, ht, qUpdate_withInsert]

theorem analyse_withInsert (xm rAtt rDec : Word) :
    analyse xm rAtt rDec (withInsert i v s) = withInsert i v (analyse xm rAtt rDec s) := rfl

variable {i s}

/-- A routed coefficient reads an insert register only where it is connected, so never the changed
one (R195, R196). -/
theorem route_withInsert (h : insertConn s.snap i = false) (j : Band) :
    route (withInsert i v s) j = route s j := by
  cases hs : insertConn s.snap (rot s j) with
  | false =>
    exact (route_disconnected (s := withInsert i v s) hs).trans (route_disconnected hs).symm
  | true =>
    have hne : rot s j ≠ i := fun e => by simp [e, h] at hs
    calc route (withInsert i v s) j
      _ = div32 ((s.snap.insertIn.set i v).get (rot s j)) norm :=
        route_connected (s := withInsert i v s) hs
      _ = div32 (s.snap.insertIn.get (rot s j)) norm := by rw [Lanes.get_set_other _ _ hne]
      _ = route s j := (route_connected hs).symm

theorem bandTerms_withInsert (h : insertConn s.snap i = false) (xc : Word) :
    bandTerms xc (withInsert i v s) = bandTerms xc s := by
  simp only [bandTerms, route_withInsert v h]
  rfl

theorem synthesise_withInsert (h : insertConn s.snap i = false) (xc : Word) :
    synthesise xc (withInsert i v s) = withInsert i v (synthesise xc s) := by
  unfold synthesise
  rw [bandTerms_withInsert v h]
  simp only [bankHist, cascadeAt, withInsert]

theorem stepCommit_withInsert (h : insertConn s.snap i = false) :
    stepCommit (withInsert i v s) = withInsert i v (stepCommit s) := by
  unfold stepCommit
  rw [prepare_withInsert, analyse_withInsert, synthesise_withInsert v (by simpa using h)]
  rfl

theorem complete_step_withInsert (h : insertConn s.snap i = false) :
    complete .step (withInsert i v s) = withInsert i v (complete .step s) := by
  unfold complete
  dsimp only
  rw [stepCommit_withInsert v h]
  rfl

end

/-- Settles O42: completion commutes with the change of the insert register and keeps the snapshot. -/
theorem disconnectedInsertIsIgnored : Obligations.DisconnectedInsertIsIgnored := by
  intro s i v h
  have hcomm := complete_step_withInsert v h
  unfold withInsert at hcomm
  rwa [complete_snap] at hcomm

end Sys2Proof.Machine

/-!
PROOFS. Input scaling, gain multipliers and summation (45_gain_sum.md): the output of a STEP as the
scaled running sum of its band terms (R212 to R214), and the silence of a disconnected input (R210).
-/

namespace Sys2Proof.Machine

/-! ### The output -/

/-- The band terms a STEP sums, read off the state it leaves: the carrier cascade's output is the
newest output in its history, and the route is that of the new envelopes and offset (R212). -/
theorem complete_step_term (s : State) (i : Band) :
    (bandTerms (carSample s.snap) (analyse (modSample s.snap) (slewRate (slewKnob .attack s.snap))
        (slewRate (slewKnob .decay s.snap)) (prepare s))).get i =
      bandTerm ((((complete .step s).hist.get .car).get i).s1).y1 (route (complete .step s) i)
        (s.snap.bandGain.get i) := by
  have hroute : route (complete .step s) i = route (stepCommit s) i :=
    route_congr (by rw [complete_snap, stepCommit_snap])
      (by rw [complete_step_bandOffset, stepCommit_bandOffset]) (complete_step_env s) i
  rw [← stepCommit_term, hroute, complete_step_hist_get, ← cascade_out, complete_step_coef]
  rfl

/-- Settles O51: the terms are those of step 6, and the sum and the two products are SUM and
OUT_SCALE. -/
theorem outputIsTheRunningSum : Obligations.OutputIsTheRunningSum := fun s =>
  ⟨_, complete_step_term s, (complete_step_out s).trans (stepCommit_out s)⟩

/-! ### A disconnected input -/

/-- +0 times a finite value that is not negative is +0 (R16). -/
theorem mul32_zero_left {g : Word} (fg : isFinite g = true) (ng : isNeg g = false) :
    mul32 0x00000000#32 g = 0x00000000#32 := by
  have hz : units 0x00000000#32 = 0 := units_zero (by decide)
  rw [mul32_of_finite (by decide) fg, ng, hz, Nat.zero_mul]
  decide

/-- A legal input gain lies in [1, 10], so it is finite and not negative (R13, R42). -/
theorem inputGain_finite_nonneg {l : Regs} (h : RegsLegal l) {k : Knob}
    (hk : k = .modGain ∨ k = .carGain) :
    isFinite (l.knob k) = true ∧ isNeg (l.knob k) = false := by
  have hlo : k.lo = 0x3F800000#32 := by rcases hk with rfl | rfl <;> rfl
  have hhi : k.hi = 0x41200000#32 := by rcases hk with rfl | rfl <;> rfl
  obtain ⟨-, klo, khi⟩ := h.knobs k
  rw [hlo] at klo
  rw [hhi] at khi
  have hmin : 0 ≤ totalKey 0x3F800000#32 := by decide
  exact ⟨finite_of_range klo khi (by decide) (by decide),
    (isNeg_iff_totalKey _).2 (hmin.trans klo)⟩

/-- The scaled +0 of a disconnected input, at either legal input gain (R210). -/
theorem scaledZero_eq_zero {l : Regs} (h : RegsLegal l) {k : Knob}
    (hk : k = .modGain ∨ k = .carGain) :
    mul32 (div32 zero32 norm) (l.knob k) = 0x00000000#32 := by
  have hdiv : div32 zero32 norm = 0x00000000#32 := by decide
  obtain ⟨fg, ng⟩ := inputGain_finite_nonneg h hk
  rw [hdiv, mul32_zero_left fg ng]

/-- A disconnected modulator input is read as +0.0 (R210). -/
theorem modSample_disconnected {l : Regs} (h : modConn l = false) :
    modSample l = mul32 (div32 zero32 norm) (l.knob .modGain) := by
  simp [modSample, h, Regs.knob]

/-- So is a disconnected carrier input (R210). -/
theorem carSample_disconnected {l : Regs} (h : carConn l = false) :
    carSample l = mul32 (div32 zero32 norm) (l.knob .carGain) := by
  simp [carSample, h, Regs.knob]

/-- Settles O52: a disconnected input is read as +0, which division by 5 and a legal gain keep. -/
theorem disconnectedInputsAreSilent : Obligations.DisconnectedInputsAreSilent := fun _ h =>
  ⟨fun hc => (modSample_disconnected hc).trans (scaledZero_eq_zero h (.inl rfl)),
    fun hc => (carSample_disconnected hc).trans (scaledZero_eq_zero h (.inr rfl))⟩

end Sys2Proof.Machine

/-!
PROOFS. The four commands in the cycle their word is written (46_commands.md): when STEP and CONFIGURE
are accepted, what each command may change, and which rates are usable (R230, R231, R234, R235).
-/

namespace Sys2Proof.Machine

/-! ### Usable rates -/

/-- Settles O25: FS_OK compares with 2.0 * F0[15] = 12800.0, and above it the order of the values is
that of the words. -/
theorem fsOkMeansAbove12800 : Obligations.FsOkMeansAbove12800 := by
  intro fs
  have bound : mul32 two32 (f0 15) = 0x46480000#32 := by decide
  have hword := toNat_eq fs
  constructor
  · intro h
    obtain ⟨hpos, hfin⟩ := fsOk_pos h
    rw [fsOk, bound, Bool.and_eq_true, gt32, lt32_iff, orderKey_of_pos hpos] at h
    obtain ⟨-, -, -, habove⟩ := h
    have hkey : orderKey 0x46480000#32 = 0x46480000 := by decide
    simp only [isFinite, decide_eq_true_eq] at hfin
    simp only [hpos, Bool.false_eq_true, if_false] at hword
    omega
  · rintro ⟨hlo, hhi⟩
    have hpos : isNeg fs = false := by simp only [isNeg, decide_eq_false_iff_not]; omega
    simp only [hpos, Bool.false_eq_true, if_false, Nat.zero_add] at hword
    have hfin : isFinite fs = true := by simp only [isFinite, decide_eq_true_eq]; omega
    have hkey : orderKey 0x46480000#32 = 0x46480000 := by decide
    rw [fsOk, bound, Bool.and_eq_true, gt32, lt32_iff, orderKey_of_pos hpos]
    exact ⟨hfin, by decide, isNaN_of_finite hfin, by omega⟩

/-! ### Acceptance -/

section
variable {s : State}

theorem busyFlag_of_idle (h : s.seq = .idle) : busyFlag s = false := by
  simp [busyFlag, h]

/-- STEP on an idle, configured core (R230). -/
theorem exec_step_accepted (h : s.seq = .idle) (hc : s.configured = true) :
    exec .step s = .next (accept .step s) := by
  simp [exec, execStep, busyFlag_of_idle h, hc]

/-- CONFIGURE on an idle core with a usable rate (R230, R235). -/
theorem exec_configure_accepted (h : s.seq = .idle) (hf : fsOk s.regs.sampleRate = true) :
    exec .configure s = .next (accept .configure s) := by
  simp [exec, execConfigure, busyFlag_of_idle h, hf]

end

/-- Settles O20: the acceptance of STEP, with the latch and the count of `accept` written out. -/
theorem stepIsAccepted : Obligations.StepIsAccepted := fun _ => exec_step_accepted

/-- Settles O23: the bounds on SAMPLE_RATE are those of FS_OK. -/
theorem configureIsAccepted : Obligations.ConfigureIsAccepted := fun _ h hlo hhi =>
  exec_configure_accepted h ((fsOkMeansAbove12800 _).2 ⟨hlo, hhi⟩)

/-! ### What a command may change -/

/-- STEP is accepted or raises one error. -/
theorem exec_step_cases (s : State) :
    exec .step s = .next (accept .step s) ∨ ∃ e, exec .step s = .next (raiseError e s) := by
  cases hb : busyFlag s with
  | true => exact .inr ⟨.busy, by simp [exec, execStep, hb]⟩
  | false =>
    cases hc : s.configured with
    | true => exact .inl (by simp [exec, execStep, hb, hc])
    | false => exact .inr ⟨.notConfigured, by simp [exec, execStep, hb, hc]⟩

/-- So is or does CONFIGURE. -/
theorem exec_configure_cases (s : State) :
    exec .configure s = .next (accept .configure s) ∨
      ∃ e, exec .configure s = .next (raiseError e s) := by
  cases hb : busyFlag s with
  | true => exact .inr ⟨.busy, by simp [exec, execConfigure, hb]⟩
  | false =>
    cases hf : fsOk s.regs.sampleRate with
    | true => exact .inl (by simp [exec, execConfigure, hb, hf])
    | false => exact .inr ⟨.badFs, by simp [exec, execConfigure, hb, hf]⟩

/-- A command that is accepted or raises one error writes the snapshot and the sequencer, or an error
bit (R230, R262). -/
theorem frame_of_accept_or_error {a : Answer} {op : BusyOp} {s t : State}
    (ha : a = .next (accept op s) ∨ ∃ e, a = .next (raiseError e s)) (h : a = .next t) :
    (∃ (l : Regs) (q : Seq), t = { s with snap := l, seq := q }) ∨
      ∃ e : BitVec 5, t = { s with err := e } := by
  obtain rfl | ⟨e, rfl⟩ := ha
  · cases h; exact .inl ⟨_, _, rfl⟩
  · cases h; exact .inr ⟨_, rfl⟩

/-- Settles O26: STEP and CONFIGURE are accepted or refused, RESET clears the band offset or is refused. -/
theorem commandFrame : Obligations.CommandFrame := by
  intro s t
  refine ⟨fun h => by cases h; rfl, fun h => ?_, fun h => ?_⟩
  · rcases h with h | h
    · exact frame_of_accept_or_error (exec_step_cases s) h
    · exact frame_of_accept_or_error (exec_configure_cases s) h
  · obtain ⟨idle, busy⟩ := resetClearsBandOffset s
    by_cases hq : s.seq = .idle
    · rw [idle hq] at h; cases h; exact .inl rfl
    · rw [busy hq] at h; cases h; exact .inr ⟨_, rfl⟩

/-! ### NOP -/

/-- Settles O19: a cycle with NOP and an idle cycle have accesses with the same answer. -/
theorem nopHasNoEffect : Obligations.NopHasNoEffect := by
  refine ⟨by decide, by decide, fun s => ⟨rfl, fun rest => ?_⟩⟩
  have nop := step_of_access (s := { s with host := .edge (pinsOf (encode .nop)) :: rest }) rfl rfl
    (access_decoded (i := .nop) rfl rfl _)
  have idle := step_of_access (s := { s with host := .edge idlePins :: rest }) rfl rfl
    (access_absent rfl _)
  exact nop.trans idle.symm

/-! ### The effect of a CONFIGURE -/

/-- Settles O36: the written fields are `configureCommit`'s, and each record of the rebuilt banks is
read. -/
theorem configureEffect : Obligations.ConfigureEffect := by
  refine fun s => ⟨rfl, rfl, fun b => ?_, rfl⟩
  cases b with
  | mod => exact ⟨rfl, bankCoef_get s.snap.sampleRate (qTarget .mod s.snap)⟩
  | car => exact ⟨rfl, bankCoef_get s.snap.sampleRate (qTarget .car s.snap)⟩

end Sys2Proof.Machine

/-!
PROOFS. A command from its acceptance to its completion (R233, R236, R305): the count of the sequencer
over several cycles, whatever the host does, and the run of one command on an idle core.
-/

namespace Sys2Proof.Machine

/-! ### The host's list over several cycles -/

/-- One cycle takes one event off the host's list. -/
theorem step_host {s t : State} (h : step s = .next t) : t.host = s.host.tail := by
  obtain ⟨p, -, ⟨-, rfl⟩ | ⟨-, u, -, he, rfl⟩⟩ := step_cases h
  · unfold resetEdge; split <;> rfl
  · split
    · exact (tick_host u).trans he.host
    · exact he.host

/-- A host whose next events are edges with `rst_n` high presents such an edge now, and goes on so. -/
theorem RunsFor.next {n : Nat} {s : State} (h : RunsFor (n + 1) s) :
    (∃ p, nextEvent s = .edge p ∧ p.rstN = true) ∧
      ∀ t, t.host = s.host.tail → RunsFor n t := by
  unfold RunsFor at *
  unfold nextEvent
  cases hh : s.host with
  | nil => exact ⟨⟨idlePins, rfl, rfl⟩, fun t ht => by simp [ht]⟩
  | cons e rest =>
    rw [hh, List.take_succ_cons, List.forall_mem_cons] at h
    obtain ⟨he, hrest⟩ := h
    refine ⟨?_, fun t ht => by rw [ht]; exact hrest⟩
    cases e with
    | edge p => exact ⟨p, rfl, he⟩
    | stopClock => cases he

/-! ### A pending command -/

/-- The cycle in which the count of a pending command runs out leaves its computation (R233, R305). -/
theorem step_pending_last {s : State} {p : Pins} {op : BusyOp} (hp : nextEvent s = .edge p)
    (hr : p.rstN = true) (hq : s.seq = .busy op 1) :
    ∃ t, step s = .next t ∧ t.seq = .idle ∧ t.snap = s.snap ∧ SameInternal (complete op s) t := by
  obtain ⟨t, -, -, hs⟩ := step_run hp hr
  refine ⟨_, hs, ?_⟩
  obtain ⟨hi, -⟩ | ⟨op', n', u, hq', hi, -, hsn, ⟨-, ht⟩ | ⟨hn', -⟩⟩ := runStep_cases hs hp hr
  · rw [hq] at hi; cases hi
  · rw [hq] at hq'; cases hq'
    rw [ht]
    exact ⟨complete_seq u op, (complete_snap u op).trans hsn, complete_sameInternal op hi hsn⟩
  · rw [hq] at hq'; cases hq'; omega

/-- Settles O34: by induction on the count. Each cycle but the last only counts down, and the last one
computes on internal elements and a snapshot that are still those of the start. -/
theorem pendingCommandCompletes : Obligations.PendingCommandCompletes := by
  intro n
  induction n with
  | zero => intro s op h; omega
  | succ n ih =>
    intro s op _ hq hruns
    obtain ⟨⟨p, hp, hr⟩, hgo⟩ := hruns.next
    have now : ∃ t, runFor 0 s = .next t ∧ t.seq = .busy op (n + 1 - 0) ∧ t.snap = s.snap ∧
        SameInternal s t := ⟨s, rfl, hq, rfl, .refl s⟩
    rcases Nat.eq_zero_or_pos n with rfl | hn
    · refine ⟨fun k hk => ?_, ?_⟩
      · obtain rfl : k = 0 := by omega
        exact now
      · obtain ⟨t, hs, ht⟩ := step_pending_last hp hr hq
        exact ⟨t, by rw [runFor_succ hs]; rfl, ht⟩
    · obtain ⟨t, hs, htq, htl, hti⟩ :=
        pendingCommandIsUndisturbed s p op (n + 1) hp hr hq (by omega)
      obtain ⟨before, u, hu, huq, hul, hui⟩ := ih t op hn htq (hgo t (step_host hs))
      refine ⟨fun k hk => ?_, ?_⟩
      · cases k with
        | zero => exact now
        | succ k =>
          obtain ⟨v, hv, hvq, hvl, hvi⟩ := before k (by omega)
          rw [runFor_succ hs, Nat.add_sub_add_right]
          exact ⟨v, hv, hvq, hvl.trans htl, hti.trans hvi⟩
      · rw [runFor_succ hs]
        exact ⟨u, hu, huq, hul.trans htl, (complete_sameInternal op hti htl).trans hui⟩

/-! ### One command on an idle core -/

/-- With an idle host a cycle only counts. -/
theorem step_quiet {s : State} (hh : s.host = []) (hd : s.rdata = none) :
    step s = .next (tick s) := by
  have hp : nextEvent s = .edge idlePins := by simp [nextEvent, hh]
  have same : dropData (popEvent s) = s := by cases s; simp_all [dropData, popEvent]
  have hs := step_of_access hp rfl (access_absent rfl _)
  rw [same] at hs
  rw [hs]
  split
  · next hq => rw [tick_of_idle (busyFlag_of_idle hq)]
  · rfl

/-- A completion does not read the sequencer (R56). -/
theorem complete_with_seq (op : BusyOp) (q : Seq) (s : State) :
    complete op { s with seq := q } = complete op s :=
  (complete_withOutside s.regs q s.err s.rdata s.host s op).trans
    (complete_withOutside s.regs s.seq s.err s.rdata s.host s op).symm

/-- Under an idle host a pending command completes after its count, and nothing else happens. -/
theorem runFor_quiet (n : Nat) {s : State} {op : BusyOp} (hh : s.host = []) (hd : s.rdata = none)
    (hq : s.seq = .busy op (n + 1)) : runFor (n + 1) s = .next (complete op s) := by
  induction n generalizing s with
  | zero =>
    rw [runFor_succ (step_quiet hh hd), tick_completes hq le_rfl]
    rfl
  | succ n ih =>
    have rest := ih (s := { s with seq := .busy op (n + 1) }) hh hd rfl
    rw [complete_with_seq] at rest
    rw [runFor_succ (step_quiet hh hd), tick_counts hq (by omega)]
    exact rest

/-- An idle core that accepts the command written to it, and an idle host after it: the run ends in
the command's completion on the registers of the accepting cycle (R230, R305). -/
theorem runFor_command {s : State} {i : Instr} {op : BusyOp} (hq : s.seq = .idle)
    (hi : access (pinsOf (encode i)) { s with host := [], rdata := none } =
      .next (accept op { s with host := [], rdata := none }))
    (hr : (pinsOf (encode i)).rstN = true) :
    runFor (latency op + 1) { s with host := [.edge (pinsOf (encode i))] } =
      .next { complete op { s with snap := s.regs } with rdata := none, host := [] } := by
  have cycle := step_of_access (s := { s with host := [.edge (pinsOf (encode i))] }) rfl hr hi
  rw [if_pos hq] at cycle
  obtain ⟨n, hn⟩ := Nat.exists_eq_add_of_le' (latency_pos op)
  rw [runFor_succ cycle, hn, runFor_quiet n rfl rfl (by rw [accept_seq, hn])]
  refine congrArg Host.Outcome.next ((complete_withOutside s.regs (.busy op (latency op)) s.err none []
    { s with snap := s.regs } op).trans ?_)
  simp only [withOutside, complete_regs, complete_seq, complete_err]

/-- Settles O35: each of the two commands is accepted by its own premise and then runs by
`runFor_command`. -/
theorem commandRunsToCompletion : Obligations.CommandRunsToCompletion := by
  intro s hq
  constructor
  · intro hc
    have acc := exec_step_accepted (s := { s with host := [], rdata := none }) hq hc
    rw [runFor_command hq ((access_decoded (i := .step) rfl rfl _).trans acc) rfl]
    simp only [complete]
  · intro hf
    have acc := exec_configure_accepted (s := { s with host := [], rdata := none }) hq hf
    exact runFor_command hq ((access_decoded (i := .configure) rfl rfl _).trans acc) rfl

end Sys2Proof.Machine

/-!
PROOFS. The loops of the pseudocode (R132, R133, R153, R176, R232, R236) against the lane-parallel
computation. The state between two passes of a loop is the final state in the lanes the loop has done
and the initial state in the others (`Lanes.merge`); no pass reads another lane (R158, R176).
-/

namespace Sys2Proof.Machine

/-! ### Containers half written -/

theorem Banks.set_set {α : Type} (v : Banks α) (b : Bank) (x y : α) :
    (v.set b x).set b y = v.set b y := by
  cases b <;> rfl

theorem Banks.set_get {α : Type} (v : Banks α) (b : Bank) : v.set b (v.get b) = v := by
  cases b <;> rfl

/-- Both stages written, in order. -/
theorem Stages.set_both {α : Type} (v : Stages α) (x y : α) :
    (v.set .s0 x).set .s1 y = ⟨x, y⟩ := rfl

theorem Lanes.set_set {α : Type} (v : Lanes α) (i : Band) (x y : α) :
    (v.set i x).set i y = v.set i y :=
  Lanes.ext_get fun j => by simp only [Lanes.get_set]; split <;> rfl

/-- The lanes of `new` at the bands in `done`, those of `old` at the others. -/
def Lanes.merge {α : Type} (done : List Band) (new old : Lanes α) : Lanes α :=
  Lanes.ofFn fun i => if i ∈ done then new.get i else old.get i

section
variable {α : Type} {done : List Band} {i : Band} (new old : Lanes α)

@[simp] theorem Lanes.merge_nil : Lanes.merge [] new old = old := by
  simp [Lanes.merge]

@[simp] theorem Lanes.merge_bands : Lanes.merge bands new old = new := by
  have all : ∀ i : Band, i ∈ bands := by decide
  simp [Lanes.merge, all]

/-- A band the loop has not reached. -/
theorem Lanes.get_merge_of_notMem (h : i ∉ done) : (Lanes.merge done new old).get i = old.get i := by
  simp [Lanes.merge, h]

/-- One more band done. -/
theorem Lanes.set_merge {x : α} (hx : x = new.get i) :
    (Lanes.merge done new old).set i x = Lanes.merge (done ++ [i]) new old := by
  refine Lanes.ext_get fun j => ?_
  rw [Lanes.get_set, hx]
  simp only [Lanes.merge, Lanes.get_ofFn, List.mem_append, List.mem_singleton]
  by_cases hj : j = i
  · simp [hj]
  · simp [hj]

end

/-- A loop over the bands: `part done` is what it has computed after the bands in `done`. -/
theorem foldl_bands {β : Type} {f : β → Band → β} {part : List Band → β}
    (pass : ∀ done i, i ∉ done → f (part done) i = part (done ++ [i])) :
    bands.foldl f (part []) = part bands := by
  have loop : ∀ l done : List Band, (done ++ l).Nodup →
      l.foldl f (part done) = part (done ++ l) := by
    intro l
    induction l with
    | nil => intro done _; rw [List.append_nil]; rfl
    | cons i rest ih =>
      intro done hnd
      have hi : i ∉ done := fun h => List.disjoint_of_nodup_append hnd h List.mem_cons_self
      rw [List.foldl_cons, pass done i hi, ih, List.append_assoc]
      · rfl
      · rwa [List.append_assoc]
  exact loop bands [] (by decide)

/-! ### The coefficients: Q_UPDATE and CONFIGURE -/

/-- BQ_REBUILD of both stages of a band (R134). -/
theorem seqRebuild_both (b : Bank) (i : Band) (fs q : Word) (s : State) :
    seqRebuild b i .s1 fs q (seqRebuild b i .s0 fs q s) =
      { s with
        coef := s.coef.set b ((s.coef.get b).set i ⟨bandCoef i fs q, bandCoef i fs q⟩) } := by
  simp only [seqRebuild, Banks.get_set_same, Banks.set_set, Lanes.get_set_same, Lanes.set_set,
    Stages.set_both]
  rfl

/-- The state after BQ_REBUILD of the bands in `done` of one bank. -/
def rebuiltPart (b : Bank) (fs q : Word) (s : State) (done : List Band) : State :=
  { s with coef := s.coef.set b (Lanes.merge done (bankCoef fs q) (s.coef.get b)) }

theorem seqRebuild_pass (b : Bank) (fs q : Word) (s : State) (done : List Band) (i : Band) :
    seqRebuild b i .s1 fs q (seqRebuild b i .s0 fs q (rebuiltPart b fs q s done)) =
      rebuiltPart b fs q s (done ++ [i]) := by
  have record : (⟨bandCoef i fs q, bandCoef i fs q⟩ : Stages Coef) = (bankCoef fs q).get i := by
    simp [bankCoef]
  rw [seqRebuild_both]
  simp only [rebuiltPart, Banks.get_set_same, Banks.set_set, Lanes.set_merge _ _ record]

/-- A loop with these passes rebuilds the bank's coefficient file. -/
theorem foldl_rebuiltPart {f : State → Band → State} {b : Bank} {fs q : Word} {s : State}
    (pass : ∀ done i, f (rebuiltPart b fs q s done) i = rebuiltPart b fs q s (done ++ [i])) :
    bands.foldl f s = { s with coef := s.coef.set b (bankCoef fs q) } := by
  have loop := foldl_bands (part := rebuiltPart b fs q s) fun done i _ => pass done i
  simpa only [rebuiltPart, Lanes.merge_nil, Lanes.merge_bands, Banks.set_get] using loop

/-- The loop of CONFIGURE over one bank (R236). -/
theorem foldl_seqRebuild (b : Bank) (fs q : Word) (s : State) :
    bands.foldl (fun s i => seqRebuild b i .s1 fs q (seqRebuild b i .s0 fs q s)) s =
      { s with coef := s.coef.set b (bankCoef fs q) } :=
  foldl_rebuiltPart (seqRebuild_pass b fs q s)

/-- The loop of Q_UPDATE: BQ_SETQ is BQ_REBUILD at the applied rate (R132, R153). -/
theorem foldl_seqSetQ (b : Bank) (q : Word) (s : State) :
    bands.foldl (fun s i => seqSetQ b i .s1 q (seqSetQ b i .s0 q s)) s =
      { s with coef := s.coef.set b (bankCoef s.fs q) } :=
  foldl_rebuiltPart (seqRebuild_pass b s.fs q s)

theorem seqQUpdate_eq (b : Bank) (t : Word) (s : State) : seqQUpdate b t s = qUpdate b t s := by
  cases h : qHystTest (s.qApplied.get b) t with
  | true => simp only [seqQUpdate, h, if_true, foldl_seqSetQ, qUpdate_pass s h]
  | false => simp [seqQUpdate, h, qUpdate_fail s h]

theorem seqConfigureBank_eq (fs : Word) (b : Bank) (s : State) :
    seqConfigureBank fs s b =
      { s with
        qApplied := s.qApplied.set b (qTarget b s.snap)
        coef := s.coef.set b (bankCoef fs (qTarget b s.snap)) } := by
  simp only [seqConfigureBank, foldl_seqRebuild]

theorem seqConfigureCommit_eq (s : State) : seqConfigureCommit s = configureCommit s := by
  simp only [seqConfigureCommit, List.foldl_cons, List.foldl_nil, seqConfigureBank_eq]
  rfl

/-! ### The cascades -/

/-- CASCADE in two statements gives the output and the two new histories of the band (R155). -/
theorem seqCascade_eq (b : Bank) (i : Band) (x : Word) (s : State) :
    seqCascade b i x s =
      ((cascadeAt b i x s).1,
        { s with hist := s.hist.set b ((s.hist.get b).set i (cascadeAt b i x s).2) }) := by
  simp only [seqCascade, seqProcess, Banks.get_set_same, Banks.set_set, Lanes.get_set_same,
    Lanes.set_set, Stages.set_both, cascadeAt, cascade, bqProcess]
  rfl

/-- A cascade reads its bank's coefficients and its own histories (R156). -/
theorem cascadeAt_congr {s t : State} {b : Bank} {i : Band} {x : Word} (hc : t.coef = s.coef)
    (hh : (t.hist.get b).get i = (s.hist.get b).get i) :
    cascadeAt b i x t = cascadeAt b i x s := by
  rw [cascadeAt, hc, hh, cascadeAt]

/-! ### Step 5, the modulator bank -/

/-- The state after the passes of step 5 over the bands in `done`. -/
def analysedPart (xm rAtt rDec : Word) (s : State) (done : List Band) : State :=
  { s with
    hist := s.hist.set .mod (Lanes.merge done (bankHist .mod xm s) (s.hist.get .mod))
    peak := Lanes.merge done (analyse xm rAtt rDec s).peak s.peak
    env := Lanes.merge done (analyse xm rAtt rDec s).env s.env
    envOut := Lanes.merge done (analyse xm rAtt rDec s).envOut s.envOut }

theorem seqAnalyseBand_pass (xm rAtt rDec : Word) (s : State) (done : List Band) (i : Band)
    (h : i ∉ done) :
    seqAnalyseBand xm rAtt rDec (analysedPart xm rAtt rDec s done) i =
      analysedPart xm rAtt rDec s (done ++ [i]) := by
  have out : cascadeAt .mod i xm (analysedPart xm rAtt rDec s done) = cascadeAt .mod i xm s :=
    cascadeAt_congr rfl (by simp only [analysedPart, Banks.get_set_same,
      Lanes.get_merge_of_notMem _ _ h])
  simp only [seqAnalyseBand, seqCascade_eq, seqEnvUpdate, seqEnvOut, out, Lanes.get_set_same]
  simp only [analysedPart, Banks.get_set_same, Banks.set_set, Lanes.get_merge_of_notMem _ _ h]
  rw [Lanes.set_merge, Lanes.set_merge, Lanes.set_merge, Lanes.set_merge]
  all_goals simp [bankHist]

theorem foldl_seqAnalyseBand (xm rAtt rDec : Word) (s : State) :
    bands.foldl (seqAnalyseBand xm rAtt rDec) s = analyse xm rAtt rDec s := by
  have loop := foldl_bands (seqAnalyseBand_pass xm rAtt rDec s)
  simp only [analysedPart, Lanes.merge_nil, Lanes.merge_bands, Banks.set_get] at loop
  exact loop

/-! ### Step 6, the carrier bank and the sum -/

/-- The running sum and the state after the passes of step 6 over the bands in `done`. -/
def synthesisedPart (xc : Word) (s : State) (done : List Band) : Word × State :=
  (done.foldl (fun acc i => add32 acc ((bandTerms xc s).get i)) zero32,
    { s with hist := s.hist.set .car (Lanes.merge done (bankHist .car xc s) (s.hist.get .car)) })

theorem seqSynthBand_pass (xc : Word) (s : State) (done : List Band) (i : Band) (h : i ∉ done) :
    seqSynthBand xc (synthesisedPart xc s done) i = synthesisedPart xc s (done ++ [i]) := by
  have out : cascadeAt .car i xc (synthesisedPart xc s done).2 = cascadeAt .car i xc s :=
    cascadeAt_congr rfl (by simp only [synthesisedPart, Banks.get_set_same,
      Lanes.get_merge_of_notMem _ _ h])
  simp only [seqSynthBand, seqCascade_eq, out]
  simp only [synthesisedPart, Banks.get_set_same, Banks.set_set, List.foldl_append, List.foldl_cons,
    List.foldl_nil]
  rw [Lanes.set_merge _ _ (by simp [bankHist])]
  simp only [bandTerms, Lanes.get_ofFn]
  rfl

theorem foldl_seqSynthBand (xc : Word) (s : State) :
    bands.foldl (seqSynthBand xc) (zero32, s) =
      (sumTerms (bandTerms xc s), { s with hist := s.hist.set .car (bankHist .car xc s) }) := by
  have loop := foldl_bands (seqSynthBand_pass xc s)
  simp only [synthesisedPart, Lanes.merge_nil, Lanes.merge_bands, Banks.set_get] at loop
  exact loop

/-! ### The whole computations -/

theorem seqStepCommit_eq (s : State) : seqStepCommit s = stepCommit s := by
  simp only [seqStepCommit, seqQUpdate_eq, foldl_seqAnalyseBand, foldl_seqSynthBand]
  simp only [stepCommit, prepare, synthesise, analyse_snap, qUpdate_snap, bofsStep_snap]

/-- Settles O37: each loop is replaced by its lane-parallel form. -/
theorem loopsGiveTheSameState : Obligations.LoopsGiveTheSameState := fun s =>
  ⟨(seqStepCommit_eq s).symm, (seqConfigureCommit_eq s).symm⟩

end Sys2Proof.Machine

/-!
PROOFS. Silence (95_test_vectors.md S7, P1): zeros of either sign stay zeros through finite
coefficients and gains, so with nothing connected a STEP gives peaks, envelopes and output +0.
-/

namespace Sys2Proof.Machine

/-! ### Arithmetic of zeros of either sign -/

section
variable {a b : Word}

theorem isZero_iff : isZero a = true ↔ magBits a = 0 := by simp [isZero]

theorem isFinite_of_isZero (h : isZero a = true) : isFinite a = true := by
  simp [isFinite, isZero_iff.1 h]

/-- A zero without its sign is +0. -/
theorem eq_zero_of_isZero (h : isZero a = true) (hn : isNeg a = false) : a = 0x00000000#32 :=
  word_ext hn (isZero_iff.1 h)

theorem abs32_isZero (h : isZero a = true) : abs32 a = 0x00000000#32 :=
  eq_zero_of_isZero (by rw [isZero_iff, magBits_abs32, isZero_iff.1 h]) (isNeg_abs32 a)

/-- A product of finite values that is exactly zero is a zero (R16). -/
theorem isZero_mul32 (ha : isFinite a = true) (hb : isFinite b = true)
    (h : units a * units b = 0) : isZero (mul32 a b) = true := by
  have round : roundUnits 0 unitsPerOne = 0 := by decide
  rw [mul32_of_finite ha hb, h, round, isZero_iff]
  exact magBits_pack _ (by decide)

theorem isZero_mul32_right (ha : isFinite a = true) (hb : isZero b = true) :
    isZero (mul32 a b) = true :=
  isZero_mul32 ha (isFinite_of_isZero hb) (by rw [units_zero (isZero_iff.1 hb), Nat.mul_zero])

theorem isZero_mul32_left (ha : isZero a = true) (hb : isFinite b = true) :
    isZero (mul32 a b) = true :=
  isZero_mul32 (isFinite_of_isZero ha) hb (by rw [units_zero (isZero_iff.1 ha), Nat.zero_mul])

/-- The sum of two zeros is a zero, -0 only where both are (R16). -/
theorem add32_of_isZero (ha : isZero a = true) (hb : isZero b = true) :
    add32 a b = pack (isNeg a && isNeg b) 0 := by
  have none_left : signedUnits a + signedUnits b = 0 := by
    simp [signedUnits, units_zero (isZero_iff.1 ha), units_zero (isZero_iff.1 hb)]
  rw [add32_of_finite (isFinite_of_isZero ha) (isFinite_of_isZero hb), none_left, roundSigned,
    if_pos rfl]

theorem isZero_add32 (ha : isZero a = true) (hb : isZero b = true) : isZero (add32 a b) = true := by
  rw [add32_of_isZero ha hb]; simp [isZero]

theorem isZero_sub32 (ha : isZero a = true) (hb : isZero b = true) : isZero (sub32 a b) = true :=
  isZero_add32 ha (by rw [isZero_iff, magBits_neg32, isZero_iff.1 hb])

/-- A running sum that starts at +0 stays +0 over zeros of either sign. -/
theorem zero_add32 (hb : isZero b = true) : add32 0x00000000#32 b = 0x00000000#32 := by
  rw [add32_of_isZero (by decide) hb]; rfl

end

/-- SUM of zeros is +0 (R213). -/
theorem sumTerms_isZero {t : Lanes Word} (h : ∀ i, isZero (t.get i) = true) :
    sumTerms t = 0x00000000#32 := by
  have loop : ∀ l : List Band,
      l.foldl (fun acc i => add32 acc (t.get i)) 0x00000000#32 = 0x00000000#32 := by
    intro l
    induction l with
    | nil => rfl
    | cons i rest ih => rw [List.foldl_cons, zero_add32 (h i)]; exact ih
  exact loop bands

/-! ### The units of the datapath on zeros -/

/-- A biquad with finite coefficients, zero histories and a zero sample gives a zero (R133). -/
theorem isZero_bqOutput {c : Coef} {h : Hist} {x : Word} (hc : FiniteCoef c) (hh : ZeroHist h)
    (hx : isZero x = true) : isZero (bqOutput c h x) = true := by
  obtain ⟨b0, b1, b2, a1, a2⟩ := hc
  obtain ⟨x1, x2, y1, y2⟩ := hh
  exact isZero_sub32 (isZero_sub32 (isZero_add32 (isZero_add32 (isZero_mul32_right b0 hx)
    (isZero_mul32_right b1 x1)) (isZero_mul32_right b2 x2)) (isZero_mul32_right a1 y1))
    (isZero_mul32_right a2 y2)

theorem ZeroHist.shift {h : Hist} {x y : Word} (hh : ZeroHist h) (hx : isZero x = true)
    (hy : isZero y = true) : ZeroHist (bqShift h x y) := by
  obtain ⟨x1, -, y1, -⟩ := hh
  exact ⟨hx, x1, hy, y1⟩

/-- So a cascade of two such biquads keeps its histories zero (R155). -/
theorem zeroHist_cascade {c : Stages Coef} {h : Stages Hist} {x : Word}
    (hc : ∀ st, FiniteCoef (c.get st)) (hh : ∀ st, ZeroHist (h.get st)) (hx : isZero x = true)
    (st : Stage) : ZeroHist ((cascade c h x).2.get st) := by
  have first : isZero (bqOutput c.s0 h.s0 x) = true := isZero_bqOutput (hc .s0) (hh .s0) hx
  rw [cascade_hist]
  cases st with
  | s0 => exact (hh .s0).shift hx first
  | s1 => exact (hh .s1).shift first (isZero_bqOutput (hc .s1) (hh .s1) first)

/-- Peak and envelope +0: neither attack nor decay (R175). -/
theorem envNext_zero (rAtt rDec fs : Word) :
    envNext 0x00000000#32 0x00000000#32 rAtt rDec fs = 0x00000000#32 :=
  envNext_hold (by decide) (by decide)

/-! ### Legal gains and CONNECT bits -/

/-- A legal BANDGAIN is finite (R13, R42). -/
theorem isFinite_bandGain {l : Regs} (h : RegsLegal l) (i : Band) :
    isFinite (l.bandGain.get i) = true := by
  obtain ⟨-, hlo, hhi⟩ := h.bandGains i
  exact finite_of_range hlo hhi (by decide) (by decide)

/-- A legal output gain is finite and not negative (R13, R42). -/
theorem outGain_finite_nonneg {l : Regs} (h : RegsLegal l) :
    isFinite l.outGainKnob = true ∧ isNeg l.outGainKnob = false := by
  obtain ⟨-, hlo, hhi⟩ := h.knobs .outGain
  have hmin : 0 ≤ totalKey (Knob.outGain).lo := by decide
  exact ⟨finite_of_range hlo hhi (by decide) (by decide), (isNeg_iff_totalKey _).2 (hmin.trans hlo)⟩

/-- CONNECT bits 17:0, the two inputs and the sixteen inserts, read off the word (R37). -/
theorem getLsbD_of_mod {w : Word} (h : w.toNat % 262144 = 0) {n : Nat} (hn : n < 18) :
    w.getLsbD n = false := by
  have bit := Nat.testBit_mod_two_pow w.toNat 18 n
  rw [h] at bit
  simpa [hn, BitVec.getLsbD] using bit

/-! ### A silent STEP -/

section
variable {s : State}

/-- The sample of a disconnected bank is +0 (R210). -/
theorem bankSample_silent (hl : RegsLegal s.snap) (hc : s.snap.connect.toNat % 262144 = 0) (b : Bank) :
    bankSample b s.snap = 0x00000000#32 := by
  obtain ⟨hmod, hcar⟩ := disconnectedInputsAreSilent s.snap hl
  cases b with
  | mod => exact hmod (getLsbD_of_mod hc (by decide))
  | car => exact hcar (getLsbD_of_mod hc (by decide))

/-- Where no Q update is due a STEP keeps every coefficient (R153). -/
theorem complete_step_coef_keep
    (hq : ∀ b, qHystTest (s.qApplied.get b) (qTarget b s.snap) = false) :
    (complete .step s).coef = s.coef :=
  Banks.ext_get fun b => (complete_step_bank_keep (hq b)).2

/-- The scaled sum of zero terms is +0 for a legal output gain (R213, R214). -/
theorem outScale_silent {l : Regs} (hl : RegsLegal l) {t : Lanes Word}
    (ht : ∀ i, isZero (t.get i) = true) :
    outScale (sumTerms t) l.outGainKnob = 0x00000000#32 := by
  have scaled : mul32 0x00000000#32 norm = 0x00000000#32 := by decide
  obtain ⟨fg, ng⟩ := outGain_finite_nonneg hl
  rw [sumTerms_isZero ht, outScale, scaled, mul32_zero_left fg ng]

/-- With no insert connected and every envelope +0, every routed coefficient is +0 (R195). -/
theorem route_silent (hc : s.snap.connect.toNat % 262144 = 0)
    (he : ∀ i, s.env.get i = 0x00000000#32) (i : Band) : route s i = 0x00000000#32 := by
  have hi : insertConn s.snap (rot s i) = false := getLsbD_of_mod hc (by omega)
  rw [route_disconnected hi, he]

end

/-- Settles O55: the samples are +0, so the cascades keep their zero histories and give zeros; the
peaks, the envelopes that hold at them, the routed coefficients and with them every band term vanish. -/
theorem silenceStaysSilent : Obligations.SilenceStaysSilent := by
  intro s hl hc hq hcoef hhist henv
  have coef := complete_step_coef_keep hq
  have hist : ∀ b i st, ZeroHist ((((complete .step s).hist.get b).get i).get st) := by
    intro b i st
    rw [complete_step_hist_get, coef, bankSample_silent hl hc b]
    exact zeroHist_cascade (hcoef b i) (hhist b i) (by decide) st
  have newest : ∀ b i, isZero ((((complete .step s).hist.get b).get i).s1).y1 = true := by
    intro b i
    obtain ⟨-, -, y1, -⟩ := hist b i .s1
    exact y1
  have peak : ∀ i, (complete .step s).peak.get i = 0x00000000#32 := fun i => by
    rw [complete_step_peak_get, abs32_isZero (newest .mod i)]
  have env : ∀ i, (complete .step s).env.get i = 0x00000000#32 := fun i => by
    rw [complete_step_env_get, peak, henv, envNext_zero]
  have envOut : ∀ i, (complete .step s).envOut.get i = 0x00000000#32 := fun i => by
    rw [complete_step_envOut_get, env]; decide
  obtain ⟨t, term, out⟩ := outputIsTheRunningSum s
  have terms : ∀ i, isZero (t.get i) = true := fun i => by
    rw [term, route_silent (by rw [complete_snap]; exact hc) env]
    exact isZero_mul32_left (isZero_mul32_left (newest .car i) (by decide)) (isFinite_bandGain hl i)
  exact ⟨out.trans (outScale_silent hl terms), coef, hist, fun i => ⟨env i, peak i, envOut i⟩⟩

end Sys2Proof.Machine

/-!
PROOFS. Errors are precise (60_exceptions.md): an access raises at most the one error of R268 and has
then no other effect, a refused STEP or CONFIGURE raises exactly its own, and no edge stops the core
(R260 to R268).
-/

namespace Sys2Proof.Machine

/-! ### The error of an access -/

/-- A write to STATUS sets no error bit (R33). -/
theorem getLsbD_of_errAfterClear {err : BitVec 5} {w : Word} {k : Nat}
    (h : (errAfterClear err w).getLsbD k = true) : err.getLsbD k = true := by
  rw [getLsbD_errAfterClear err w (BitVec.lt_of_getLsbD h), Bool.and_eq_true] at h
  exact h.1

/-- Settles O27: `access_error` says that the access raises the error `errorOf` names, or that there is
none and the error bits stay or are cleared. -/
theorem errorPriorityAndPrecision : Obligations.ErrorPriorityAndPrecision := by
  intro p s t hr ht
  obtain ⟨e, he, rfl⟩ | ⟨hnone, herr⟩ := access_error hr ht
  · refine ⟨fun e' he' => ?_, fun hnone => ?_⟩
    · obtain rfl : e = e' := Option.some.inj (he.symm.trans he')
      cases p.we <;> rfl
    · rw [he] at hnone; cases hnone
  · refine ⟨fun e he => ?_, fun _ k hk => ?_⟩
    · rw [hnone] at he; cases he
    · obtain hsame | ⟨-, hclear⟩ := herr
      · rwa [hsame] at hk
      · rw [hclear] at hk; exact getLsbD_of_errAfterClear hk

/-! ### Refused commands -/

section
variable {s : State}

/-- STEP on a busy core (R264). -/
theorem exec_step_busy (h : s.seq ≠ .idle) : exec .step s = .next (raiseError .busy s) := by
  simp [exec, execStep, (busyFlag_iff s).2 h]

/-- STEP on an idle core before a CONFIGURE has completed (R265). -/
theorem exec_step_notConfigured (h : s.seq = .idle) (hc : s.configured = false) :
    exec .step s = .next (raiseError .notConfigured s) := by
  simp [exec, execStep, busyFlag_of_idle h, hc]

/-- CONFIGURE on a busy core (R264). -/
theorem exec_configure_busy (h : s.seq ≠ .idle) :
    exec .configure s = .next (raiseError .busy s) := by
  simp [exec, execConfigure, (busyFlag_iff s).2 h]

/-- CONFIGURE on an idle core with an unusable rate (R266). -/
theorem exec_configure_badFs (h : s.seq = .idle) (hf : fsOk s.regs.sampleRate = false) :
    exec .configure s = .next (raiseError .badFs s) := by
  simp [exec, execConfigure, busyFlag_of_idle h, hf]

end

/-- Settles O21: BUSY is tested first, then CONFIGURED. -/
theorem stepIsRefused : Obligations.StepIsRefused := fun _ =>
  ⟨exec_step_busy, exec_step_notConfigured⟩

/-- Settles O24: BUSY is tested first, then FS_OK, whose bounds are those of the statement. -/
theorem configureIsRefused : Obligations.ConfigureIsRefused := fun _ =>
  ⟨exec_configure_busy, fun h hbounds =>
    exec_configure_badFs h (Bool.eq_false_iff.2 (mt (fsOkMeansAbove12800 _).1 hbounds))⟩

/-! ### Every edge -/

/-- Settles O30: an edge is a power-on reset or an access with at most one count of the sequencer, and
each gives a next state. -/
theorem everyEdgeHasANextState : Obligations.EveryEdgeHasANextState := by
  intro s p hp
  obtain ⟨t, ht⟩ : ∃ t, step s = .next t := by
    cases hr : p.rstN with
    | false => exact ⟨resetEdge p (popEvent s), by simp [step, hp, clockEdge, hr]⟩
    | true =>
      obtain ⟨u, -, -, hs⟩ := step_run hp hr
      exact ⟨_, hs⟩
  exact ⟨t, ht, step_host ht⟩

end Sys2Proof.Machine

/-!
PROOFS. Reset and hazards (70_reset_and_hazards.md): an edge with `rst_n` low gives the power-on state
whatever was pending (R290, R291), and a STEP overwrites the band offset before it reads it (R302).
-/

namespace Sys2Proof.Machine

/-! ### An edge with `rst_n` low -/

/-- The power-on state that such an edge leaves, field by field (R290): only the host's list and the
presence of a read enter it. -/
theorem resetEdge_eq (p : Pins) (s : State) :
    resetEdge p s = { State.reset with
      host := s.host
      rdata := if p.req && !p.we then some 0x00000000#32 else none } := by
  unfold resetEdge
  split <;> rfl

/-- With `rst_n` low a step is the power-on reset and nothing of `runEdge`: no access runs and the
sequencer does not count (R291). -/
theorem step_rstLow {s : State} {p : Pins} (hp : nextEvent s = .edge p) (hr : p.rstN = false) :
    step s = .next (resetEdge p (popEvent s)) := by
  simp [step, hp, clockEdge, hr]

/-- Settles O31: such a step is `resetEdge` on the state with the event taken off. -/
theorem powerOnReset : Obligations.PowerOnReset := by
  intro s p hp hr
  rw [step_rstLow hp hr, resetEdge_eq, popEvent_host]

/-! ### The band offset a STEP finds -/

section
variable (s : State) (o : Word)

/-- BOFS_STEP overwrites the offset and computes the new one from the snapshot alone (R190, R193). -/
theorem bofsStep_withOffset : bofsStep { s with bandOffset := o } = bofsStep s := rfl

/-- BOFS_STEP is the first part of a STEP, so the rest of it starts from the same state; the samples and
the slew rates come from the snapshot (R232). -/
theorem stepCommit_withOffset : stepCommit { s with bandOffset := o } = stepCommit s := by
  simp only [stepCommit, prepare, bofsStep_withOffset]

end

/-- Settles O53: BOFS_STEP comes first and discards the offset it finds. -/
theorem resetIsInvisibleToStep : Obligations.ResetIsInvisibleToStep := by
  intro s o
  simp only [complete, stepCommit_withOffset]

end Sys2Proof.Machine
